-- ==== Sys2Proof/Word.lean ====
section
/-!
DEFINITION. The word types of the CHIP-8 core and nothing else.
Every value of the machine is an unsigned number of a stated width (spec 00_scope.md R7): a bit vector here exactly
where the spec adds, shifts, masks or slices it.
-/

namespace Sys2Proof

/-- An 8-bit value: a general register, a timer, a byte of memory (R5, R21). -/
abbrev Byte := BitVec 8

/-- A 16-bit value: `I`, `pc`, a call-stack entry, an instruction word (R5, R90). -/
abbrev Word := BitVec 16

/-- A 4-bit field: a register index `x` or `y`, the row count `n`, a key number (R6, R91). -/
abbrev Nibble := BitVec 4

/-- A 12-bit address field `nnn` (R91). -/
abbrev Addr12 := BitVec 12

end Sys2Proof
end

