-- ==== Sys2Proof/Machine/Flags.lean ====
section
/-!
DEFINITION. Every flag computation of the machine: the value VF receives (spec 42_alu.md R172, 44_display.md R211).
-/

namespace Sys2Proof.Machine

/-- A flag as VF holds it: 0 or 1 (R22). -/
def flagByte (c : Bool) : Byte := if c then 1 else 0

/-- Carry of `a + b`: 1 exactly when the sum exceeds 255 (R166, R172). -/
def carryFlag (a b : Byte) : Byte := flagByte (255 < a.toNat + b.toNat)

/-- The complement of the borrow of `a - b`: 1 when `a >= b`, 0 when `b > a` (R167, R169, R172). -/
def noBorrowFlag (a b : Byte) : Byte := flagByte (!(a.toNat < b.toNat : Bool))

/-- The bit a right shift by one moves out: bit 0 (R168). -/
def shiftedOutRight (a : Byte) : Byte := flagByte (a.getLsbD 0)

/-- The bit a left shift by one moves out: bit 7 (R170). -/
def shiftedOutLeft (a : Byte) : Byte := flagByte (a.getLsbD 7)

end Sys2Proof.Machine
end

