-- ==== Sys2Proof/Syntax.lean ====
section
/-!
DEFINITION. The instruction set: one constructor for each of the 34 rows of spec/opcode_table.json, in the table's order.
Fields are those of spec 30_encoding.md R91 at their own widths, so a field out of range cannot be written.
-/

namespace Sys2Proof

/-- The 34 instructions of R95. -/
inductive Instr where
  /-- `CLS` (00E0, R210). -/
  | cls
  /-- `RET` (00EE, R140). -/
  | ret
  /-- `JP nnn` (1nnn, R141). -/
  | jp (nnn : Addr12)
  /-- `CALL nnn` (2nnn, R142). -/
  | call (nnn : Addr12)
  /-- `SE Vx, nn` (3xnn, R143). -/
  | seImm (x : Nibble) (nn : Byte)
  /-- `SNE Vx, nn` (4xnn, R144). -/
  | sneImm (x : Nibble) (nn : Byte)
  /-- `SE Vx, Vy` (5xy0, R145). -/
  | seReg (x y : Nibble)
  /-- `LD Vx, nn` (6xnn, R160). -/
  | ldImm (x : Nibble) (nn : Byte)
  /-- `ADD Vx, nn` (7xnn, R161). -/
  | addImm (x : Nibble) (nn : Byte)
  /-- `LD Vx, Vy` (8xy0, R162). -/
  | ldReg (x y : Nibble)
  /-- `OR Vx, Vy` (8xy1, R163). -/
  | orReg (x y : Nibble)
  /-- `AND Vx, Vy` (8xy2, R164). -/
  | andReg (x y : Nibble)
  /-- `XOR Vx, Vy` (8xy3, R165). -/
  | xorReg (x y : Nibble)
  /-- `ADD Vx, Vy` (8xy4, R166). -/
  | addReg (x y : Nibble)
  /-- `SUB Vx, Vy` (8xy5, R167). -/
  | subReg (x y : Nibble)
  /-- `SHR Vx` (8xy6, R168). The hardware ignores `y`; the field is kept so that no bit of the word is lost. -/
  | shr (x y : Nibble)
  /-- `SUBN Vx, Vy` (8xy7, R169). -/
  | subnReg (x y : Nibble)
  /-- `SHL Vx` (8xyE, R170). The hardware ignores `y`; the field is kept so that no bit of the word is lost. -/
  | shl (x y : Nibble)
  /-- `SNE Vx, Vy` (9xy0, R146). -/
  | sneReg (x y : Nibble)
  /-- `LD I, nnn` (Annn, R190). -/
  | ldI (nnn : Addr12)
  /-- `JP V0, nnn` (Bnnn, R147). -/
  | jpV0 (nnn : Addr12)
  /-- `RND Vx, nn` (Cxnn, R171). -/
  | rnd (x : Nibble) (nn : Byte)
  /-- `DRW Vx, Vy, n` (Dxyn, R211). -/
  | drw (x y n : Nibble)
  /-- `SKP Vx` (Ex9E, R230). -/
  | skp (x : Nibble)
  /-- `SKNP Vx` (ExA1, R231). -/
  | sknp (x : Nibble)
  /-- `LD Vx, DT` (Fx07, R232). -/
  | ldVxDT (x : Nibble)
  /-- `LD Vx, K` (Fx0A, R233). -/
  | ldVxK (x : Nibble)
  /-- `LD DT, Vx` (Fx15, R234). -/
  | ldDTVx (x : Nibble)
  /-- `LD ST, Vx` (Fx18, R235). -/
  | ldSTVx (x : Nibble)
  /-- `ADD I, Vx` (Fx1E, R191). -/
  | addI (x : Nibble)
  /-- `LD F, Vx` (Fx29, R192). -/
  | ldF (x : Nibble)
  /-- `LD B, Vx` (Fx33, R193). -/
  | ldB (x : Nibble)
  /-- `LD [I], Vx` (Fx55, R194). -/
  | ldMemVx (x : Nibble)
  /-- `LD Vx, [I]` (Fx65, R195). -/
  | ldVxMem (x : Nibble)
  deriving DecidableEq, Repr

end Sys2Proof
end

