-- ==== Sys2Proof/WellFormed.lean ====
section
/-!
DEFINITION. Well-formedness of an instruction: every operand fits its field (spec 30_encoding.md R91, R93).
The constructors of `Instr` carry the widths in their types, so the checks hold of every term (Laws/PerInstr.lean proves
it once); written on numbers, they are what a program text must pass before it becomes a term, and what they refuse is
tested in Tests/Slice0.lean.
-/

namespace Sys2Proof

/-- A register index `x`, `y` is 0 to 15 (R75, R93). -/
def fitsRegister (k : Nat) : Bool := k < 16

/-- A row count `n` is 0 to 15 (R93). -/
def fitsCount (k : Nat) : Bool := k < 16

/-- An immediate `nn` is 0 to 255 (R93). -/
def fitsImmediate (k : Nat) : Bool := k < 256

/-- An address `nnn` is 0 to 0xFFF (R93). -/
def fitsAddress (k : Nat) : Bool := k < 4096

/-- Every operand fits its field. There is no other condition on an instruction: R98 knows no reserved operand value. -/
def Instr.wellFormed : Instr → Bool
  | .cls | .ret => true
  | .jp nnn | .call nnn | .ldI nnn | .jpV0 nnn => fitsAddress nnn.toNat
  | .seImm x nn | .sneImm x nn | .ldImm x nn | .addImm x nn | .rnd x nn =>
    fitsRegister x.toNat && fitsImmediate nn.toNat
  | .seReg x y | .ldReg x y | .orReg x y | .andReg x y | .xorReg x y | .addReg x y | .subReg x y | .shr x y
  | .subnReg x y | .shl x y | .sneReg x y => fitsRegister x.toNat && fitsRegister y.toNat
  | .drw x y n => fitsRegister x.toNat && fitsRegister y.toNat && fitsCount n.toNat
  | .skp x | .sknp x | .ldVxDT x | .ldVxK x | .ldDTVx x | .ldSTVx x | .addI x | .ldF x | .ldB x | .ldMemVx x
  | .ldVxMem x => fitsRegister x.toNat

/-! An instruction from the numbers of a program text, one function per format of R92 with operands (format Z has none):
`c` is the constructor; an operand that does not fit its field gives no instruction. -/

/-- Format A: `nnn`. -/
def instrA (c : Addr12 → Instr) (nnn : Nat) : Option Instr :=
  if fitsAddress nnn then some (c (BitVec.ofNat 12 nnn)) else none

/-- Format XI: `x`, `nn`. -/
def instrXI (c : Nibble → Byte → Instr) (x nn : Nat) : Option Instr :=
  if fitsRegister x && fitsImmediate nn then some (c (BitVec.ofNat 4 x) (BitVec.ofNat 8 nn)) else none

/-- Format XY: `x`, `y`. -/
def instrXY (c : Nibble → Nibble → Instr) (x y : Nat) : Option Instr :=
  if fitsRegister x && fitsRegister y then some (c (BitVec.ofNat 4 x) (BitVec.ofNat 4 y)) else none

/-- Format XYN: `x`, `y`, `n`. -/
def instrXYN (c : Nibble → Nibble → Nibble → Instr) (x y n : Nat) : Option Instr :=
  if fitsRegister x && fitsRegister y && fitsCount n then
    some (c (BitVec.ofNat 4 x) (BitVec.ofNat 4 y) (BitVec.ofNat 4 n))
  else none

/-- Format X: `x`. -/
def instrX (c : Nibble → Instr) (x : Nat) : Option Instr :=
  if fitsRegister x then some (c (BitVec.ofNat 4 x)) else none

end Sys2Proof
end

