-- ==== Sys2Proof/Config.lean ====
section
/-!
DEFINITION. What is fixed for the machine (spec 00_scope.md R5) and the free values of the model: the inputs of a cycle
that nothing outside has supplied. A free value has no body, so no proof can learn what it is.
The parameter `FONT` differs from machine to machine, so its bytes stand in State, and their default in
Sys2Proof/Machine/Font.lean.
-/

namespace Sys2Proof.Config

/-- `PROG_BASE`: the program load address and the reset value of `pc` (R5, R61). -/
abbrev progBase : Word := 0x200

/-- The largest program image, 4096 - 0x200 bytes (R295). -/
abbrev maxImage : Nat := 3584

/-- `FONT_LEN`: the number of font bytes, at addresses 0x000 to 0x04F (R5, R61). -/
abbrev fontLen : Nat := 80

/-- A value of the parameter `FONT[0..79]` (R5, R292). -/
abbrev Font := Vector Byte fontLen

/-- The keypad levels `key[15:0]` of cycle number `n` where the host's queue holds no input for it.
FREE VALUE: the spec gives the keypad no value of its own (R32, D18; notes/assumptions/2.md). -/
opaque freeKey : Nat → BitVec 16

/-- The random byte `rand` of cycle number `n` where the host's queue holds no input for it.
FREE VALUE: `rand` is under no law (R33, D15; notes/assumptions/2.md). -/
opaque freeRand : Nat → Byte

/-- The timer tick of cycle number `n` where the host's queue holds no input for it.
FREE VALUE: the reference configuration holds it at 1, another host throttles it (R34, D14; notes/assumptions/2.md). -/
opaque freeTimerTick : Nat → Bool

end Sys2Proof.Config
end

