-- ==== Sys2Proof/Machine/Font.lean ====
section
/-!
DEFINITION. The default of the parameter `FONT[0..79]` (spec 00_scope.md R5, 70_reset_and_hazards.md R292). The font of
a machine is a field of its state; this table is the one `State.reset` has.
PRESUMED and unsafe: the spec takes the byte values from general knowledge (D16; notes/assumptions/4.md). No statement
rests on a byte value.
-/

namespace Sys2Proof.Config

/-- The default of `FONT[0..79]`: sixteen glyphs of five rows (R292). -/
def defaultFont : Font := ⟨⟨
  [0xF0, 0x90, 0x90, 0x90, 0xF0] ++ [0x20, 0x60, 0x20, 0x20, 0x70] ++
  [0xF0, 0x10, 0xF0, 0x80, 0xF0] ++ [0xF0, 0x10, 0xF0, 0x10, 0xF0] ++
  [0x90, 0x90, 0xF0, 0x10, 0x10] ++ [0xF0, 0x80, 0xF0, 0x10, 0xF0] ++
  [0xF0, 0x80, 0xF0, 0x90, 0xF0] ++ [0xF0, 0x10, 0x20, 0x40, 0x40] ++
  [0xF0, 0x90, 0xF0, 0x90, 0xF0] ++ [0xF0, 0x90, 0xF0, 0x10, 0xF0] ++
  [0xF0, 0x90, 0xF0, 0x90, 0x90] ++ [0xE0, 0x90, 0xE0, 0x90, 0xE0] ++
  [0xF0, 0x80, 0x80, 0x80, 0xF0] ++ [0xE0, 0x90, 0x90, 0x90, 0xE0] ++
  [0xF0, 0x80, 0xF0, 0x80, 0xF0] ++ [0xF0, 0x80, 0xF0, 0x80, 0x80]⟩, rfl⟩

end Sys2Proof.Config
end

