-- ==== Sys2Proof/Machine/State.lean ====
section
/-!
DEFINITION. The state of the CHIP-8 core as plain data, the reasons a step can stop, and the state after reset.
The first ten fields of `State` are the ten elements of spec 10_state.md R20 in its order, and nothing else is state of
the hardware. `font`, `out` and `env` are the MODEL's own fields: the value of the parameter `FONT` of this machine (R5;
notes/assumptions/4.md), the output pins of the last cycle (R35), and the host's side of the interface, from which a
cycle takes its inputs (R32 to R34, R36; notes/assumptions/1.md, 2.md, 3.md).
-/

namespace Sys2Proof.Machine

/-- Main memory (R27, R60): the bytes that differ from their value after reset, as (address, byte) pairs, addresses
strictly rising. `Memory.wf` in Machine/Ops.lean is the canonical form. -/
abbrev Memory := List Host.Cell

/-- The display buffer `Disp[yy][xx]` (R28): 32 rows of 64 one-bit cells, row 0 at the top; bit `xx` of a row is the cell
in column `xx`, column 0 at the left (notes/assumptions/14.md). -/
abbrev Display := Vector (BitVec 64) 32

/-- The faults of the core (R250), each with its report: `word` is `fault_word`, `pc` is `fault_pc` (R256). There is no
other (R255). -/
inductive Fault where
  /-- Raised by the cycle for a fetched word that matches no row of R95 (R251). Code 1. SAFE: the run stops where the
  hardware would report the same fault in every later cycle (R258). -/
  | unsupportedOpcode (word pc : Word)
  /-- Raised by `CALL nnn` with `sp` = 16 (R252). Code 2. SAFE: the source calls what follows undefined behaviour. -/
  | stackOverflow (word pc : Word)
  /-- Raised by `RET` with `sp` = 0 (R253). Code 3. SAFE: the source calls what follows undefined behaviour. -/
  | stackUnderflow (word pc : Word)
  deriving DecidableEq, Repr

/-- Why the model gives no meaning. No instruction is refused: the second is about a host move (R36). -/
inductive Refusal where
  /-- Raised by an arm of `exec` that has no meaning yet; no arm has it. SAFE. -/
  | notModelled (mnemonic : String)
  /-- Raised by the host move LoadByte (R36, R295): the address is outside 0x200 to 0xFFF, a cycle has run since Reset,
  or the image is longer than 3584 bytes. The spec's host never makes such a move (U11, U16). SAFE. -/
  | loadNotAllowed
  deriving DecidableEq, Repr

/-- The inputs of one cycle, sampled once at its start (R32, R33, R34, R120). -/
structure CycleInput where
  /-- The keypad levels: bit `k` is `key[k]`, 1 meaning pressed (R32). -/
  key : BitVec 16
  /-- The random byte (R33). -/
  rand : Byte
  /-- Whether the timer updater runs at the end of the cycle (R34). -/
  timerTick : Bool
  deriving DecidableEq, Repr

/-- The outputs of the last cycle (R35). No instruction reads them and every cycle starts by clearing them (R121), so
nothing is remembered from one cycle to the next. -/
structure Outputs where
  /-- `sound_trigger` (R265). -/
  soundTrigger : Bool
  /-- `waiting_for_key` (R233). -/
  waitingForKey : Bool
  /-- The fault report (R256): `some` is `fault_valid` = 1; code, word and pc are those of the fault. -/
  fault : Option Fault
  deriving DecidableEq, Repr

/-- The host's side of the interface, the MODEL's own: where the inputs of the coming cycles come from (R36). -/
structure Env where
  /-- The inputs the host supplies to the coming cycles, the next one first. -/
  inputs : List CycleInput
  /-- The number of cycles run: where the queue is empty, the free inputs of Config are read at this index. -/
  drawn : Nat
  /-- Whether a cycle has run since the last Reset: LoadByte moves come before that (R36, R294). -/
  started : Bool
  deriving DecidableEq, Repr

/-- The state of the machine. -/
structure State where
  /-- Main memory (R27). -/
  mem : Memory
  /-- The general registers V0 to VF (R21). VF is the flag (R22). -/
  v : Vector Byte 16
  /-- The index register I (R23). -/
  i : Word
  /-- The program counter: while an instruction executes, its own address (R24). -/
  pc : Word
  /-- The stack pointer, 0 to 16: the number of return addresses held (R25). -/
  sp : Fin 17
  /-- The call stack (R26). -/
  stack : Vector Word 16
  /-- The display buffer (R28). -/
  disp : Display
  /-- The delay timer DT (R29). -/
  dt : Byte
  /-- The sound timer ST (R30). -/
  st : Byte
  /-- The redraw flag (R31). -/
  redraw : Bool
  /-- The parameter `FONT[0..79]` of this machine: what Reset writes to 0x000 to 0x04F (R5, R290). Nothing writes it. -/
  font : Config.Font
  /-- The output pins of the last cycle (R35). -/
  out : Outputs
  /-- The host's side (R36). -/
  env : Env
  deriving DecidableEq, Repr

/-- Outputs clear: their value at the start of a cycle (R121) and after reset (R38). -/
def Outputs.clear : Outputs where
  soundTrigger := false
  waitingForKey := false
  fault := none

/-- The display with every cell 0 (R38, R210). -/
def blankDisplay : Display := Vector.replicate 32 0

/-- The machine with the given font after reset (R38, R290, R291): every element has the value the spec states. Memory
lists nothing, and an unlisted address reads as its reset value, that of `font` below 0x050. The host has queued no input
(notes/assumptions/2.md). -/
def State.resetWith (font : Config.Font) : State where
  mem := []
  v := Vector.replicate 16 0
  i := 0
  pc := Config.progBase
  sp := 0
  stack := Vector.replicate 16 0
  disp := blankDisplay
  dt := 0
  st := 0
  redraw := true
  font := font
  out := Outputs.clear
  env := { inputs := [], drawn := 0, started := false }

/-- The machine with the default font of R292 after reset (PRESUMED bytes, notes/assumptions/4.md). -/
def State.reset : State := State.resetWith Config.defaultFont

end Sys2Proof.Machine
end

