-- ==== Sys2Proof/Machine/Ops.lean ====
section
/-!
DEFINITION. The named operations over memory, registers, the call stack, the display and `pc`, and the raising of a
fault. Every meaning is written over these.
-/

namespace Sys2Proof.Machine

/-! ## Main memory -/

/-- What address `a` holds after reset, and so what an unlisted address reads as: `FONT[a]` below 0x050, else 0 (R38,
R61, R291). -/
def resetByte (f : Config.Font) (a : Nat) : Byte := if h : a < Config.fontLen then f[a] else 0

/-- The byte at address `a` of 0 to 4095, in a machine with the font `f`. -/
def Memory.read (f : Config.Font) : Memory → Nat → Byte
  | [], a => resetByte f a
  | c :: m, a => if c.1 = a then c.2 else Memory.read f m a

/-- An entry in front of a list, left out when it says what an unlisted address reads as. -/
def Memory.put (f : Config.Font) (a : Nat) (v : Byte) (m : Memory) : Memory :=
  if v = resetByte f a then m else (a, v) :: m

/-- The memory with the byte `v` at address `a`; keeps the canonical form. -/
def Memory.write (f : Config.Font) : Memory → Nat → Byte → Memory
  | [], a, v => Memory.put f a v []
  | c :: m, a, v =>
    if c.1 < a then c :: Memory.write f m a v
    else if c.1 = a then Memory.put f a v m
    else Memory.put f a v (c :: m)

/-- The canonical form: addresses strictly rising and below 4096, and no entry that says what an unlisted address reads
as. Equal memories of machines with one font are then equal lists. -/
abbrev Memory.wf (f : Config.Font) (m : Memory) : Prop :=
  m.Pairwise (fun c d => c.1 < d.1) ∧ ∀ c ∈ m, c.1 < 4096 ∧ c.2 ≠ resetByte f c.1

/-- The memory of the state is in its canonical form. -/
abbrev State.memWf (s : State) : Prop := s.mem.wf s.font

/-- The address lines of a 16-bit effective address: its low 12 bits (R62, D5). -/
def lineOf (a : Word) : Nat := a.toNat % 4096

/-- `MemRead(a, 1)` (R7, R62, R63). -/
def State.memRead (s : State) (a : Word) : Byte := s.mem.read s.font (lineOf a)

/-- `MemWrite(a, 1, v)` (R7, R62, R63). -/
def State.memWrite (s : State) (a : Word) (v : Byte) : State := { s with mem := s.mem.write s.font (lineOf a) v }

/-- Bytes stored at ascending addresses from `a`, each address wrapping on its own (R62, R65, R67). -/
def State.storeBytes : State → Word → List Byte → State
  | s, _, [] => s
  | s, a, b :: bs => (s.memWrite a b).storeBytes (a + 1) bs

/-! ## General registers -/

/-- `V[x]` (R21). -/
def State.getV (s : State) (x : Nibble) : Byte := s.v[x.toNat]'x.isLt

/-- `V[x] <- b` (R21). -/
def State.setV (s : State) (x : Nibble) (b : Byte) : State := { s with v := s.v.set x.toNat b x.isLt }

/-- A flag and a result, in the order of R173: first VF, then `V[x]`. Where `x` is 15 the result stays. -/
def State.setFlagged (s : State) (x : Nibble) (flag result : Byte) : State := (s.setV 0xF flag).setV x result

/-- The first `k` registers loaded from the bytes at `a` and upward, V0 first (R195). -/
def State.loadRegs (s : State) (a : Word) : Nat → State
  | 0 => s
  | k + 1 =>
    let t := s.loadRegs a k
    t.setV (BitVec.ofNat 4 k) (t.memRead (a + BitVec.ofNat 16 k))

/-! ## Program counter (R8, R24, R124) -/

/-- `advance`: `pc <- (pc + 2) mod 65536`. -/
def State.advance (s : State) : State := { s with pc := s.pc + 2 }

/-- `skip`: `pc <- (pc + 4) mod 65536`; the word passed over is not fetched (R125). -/
def State.skip (s : State) : State := { s with pc := s.pc + 4 }

/-- Skip if the condition holds, else advance. -/
def State.skipIf (s : State) (c : Bool) : State := if c then s.skip else s.advance

/-- `pc <- a`. -/
def State.jump (s : State) (a : Word) : State := { s with pc := a }

/-! ## Call stack (R25, R26, R73) -/

/-- `Stack[sp] <- a; sp <- sp + 1`; none at `sp` = 16. -/
def State.push (s : State) (a : Word) : Option State :=
  if h : s.sp.val < 16 then
    some { s with stack := s.stack.set s.sp.val a h, sp := ⟨s.sp.val + 1, Nat.succ_lt_succ h⟩ }
  else none

/-- `sp <- sp - 1`, then `Stack[sp]`, which stays in the array; none at `sp` = 0. -/
def State.pop (s : State) : Option (Word × State) :=
  match s.sp with
  | ⟨0, _⟩ => none
  | ⟨k + 1, h⟩ => some (s.stack[k]'(Nat.lt_of_succ_lt_succ h), { s with sp := ⟨k, Nat.lt_of_succ_lt h⟩ })

/-! ## Index register -/

/-- `I <- a`. -/
def State.setI (s : State) (a : Word) : State := { s with i := a }

/-- The effective address at offset `k` from I: `(I + k) mod 65536` (R196). -/
def State.effAddr (s : State) (k : Nat) : Word := s.i + BitVec.ofNat 16 k

/-! ## Display (R28, R74) -/

/-- `Disp[yy][xx]`. -/
def Display.get (d : Display) (yy : Fin 32) (xx : Fin 64) : Bool := d[yy.val].getLsbD xx.val

/-- `Disp[yy][xx] <- Disp[yy][xx] XOR 1`. -/
def Display.toggle (d : Display) (yy : Fin 32) (xx : Fin 64) : Display :=
  d.set yy.val (d[yy.val] ^^^ BitVec.twoPow 64 xx.val)

/-- A display being drawn on, and whether a sprite bit has landed on a cell that was 1. -/
structure Canvas where
  disp : Display
  hit : Bool
  deriving DecidableEq, Repr

/-- One set sprite bit on the cell at row `yy`, column `xx`: the collision test, then the XOR (R211). -/
def Canvas.plot (c : Canvas) (yy : Fin 32) (xx : Fin 64) : Canvas :=
  ⟨c.disp.toggle yy xx, c.hit || c.disp.get yy xx⟩

/-- The display row of sprite row `row`: `(vy + row) mod 32` (R211, R212, C1). -/
def cellRow (vy : Byte) (row : Nat) : Fin 32 := Fin.ofNat 32 (vy.toNat + row)

/-- The display column of sprite column `col`: `(vx + col) mod 64` (R211, R212). -/
def cellCol (vx : Byte) (col : Nat) : Fin 64 := Fin.ofNat 64 (vx.toNat + col)

/-- The first `k` columns of a sprite row byte `b`, bit 7 leftmost, on display row `yy`; all of them is `k` = 8 for
every sprite (R211, C2). -/
def Canvas.drawCols (c : Canvas) (b : Byte) (vx : Byte) (yy : Fin 32) : Nat → Canvas
  | 0 => c
  | k + 1 =>
    let d := c.drawCols b vx yy k
    if b.getLsbD (7 - k) then d.plot yy (cellCol vx k) else d

/-- The first `k` rows of the sprite at I, drawn on the display of `s` at column `vx`, row `vy` (R211). -/
def State.drawRows (s : State) (vx vy : Byte) : Nat → Canvas
  | 0 => ⟨s.disp, false⟩
  | k + 1 => (s.drawRows vx vy k).drawCols (s.memRead (s.effAddr k)) vx (cellRow vy k) 8

/-! ## Instruction fetch -/

/-- The word at `pc`: two bytes, first byte high, each address wrapping on its own (R64, R122). -/
def State.fetchWord (s : State) : Word := wordOfBytes (s.memRead s.pc) (s.memRead (s.pc + 1))

/-- The state with the word `w` stored where the next fetch reads it. -/
def State.placeWord (s : State) (w : Word) : State := s.storeBytes s.pc [highByte w, lowByte w]

/-! ## Faults (R250, R256, R257) -/

/-- `fault_code` (R250). -/
def Fault.code : Fault → BitVec 2
  | .unsupportedOpcode _ _ => 1
  | .stackOverflow _ _ => 2
  | .stackUnderflow _ _ => 3

/-- `fault_word` (R256). -/
def Fault.word : Fault → Word
  | .unsupportedOpcode w _ => w
  | .stackOverflow w _ => w
  | .stackUnderflow w _ => w

/-- `fault_pc` (R256). -/
def Fault.addr : Fault → Word
  | .unsupportedOpcode _ a => a
  | .stackOverflow _ a => a
  | .stackUnderflow _ a => a

/-- `raise F(info)` (R7, R257): phase P3 ends and has written nothing. There is no trap entry: nothing is saved, no mode
changes, no control is transferred (R261), and so there is no return from a fault either (R262). -/
def raise (f : Fault) : Host.Outcome State Fault Refusal := .fault f

/-- The fault report on the output pins of a faulting cycle (R256). -/
def State.reportFault (s : State) (f : Fault) : State := { s with out := { s.out with fault := some f } }

end Sys2Proof.Machine
end

