-- ==== Sys2Proof/Machine/Operands.lean ====
section
/-!
DEFINITION. The operand forms: the inputs of the cycle, zero extension, the key index, the font
address, the decimal digits and the register run (spec 30_encoding.md R93, 43_index_memory.md R196, 10_state.md R32 to
R34).
-/

namespace Sys2Proof.Machine

/-! ## Inputs of the cycle -/

/-- The inputs of the coming cycle: the next of the host's queue, or free values (notes/assumptions/2.md). -/
def State.input (s : State) : CycleInput :=
  match s.env.inputs with
  | inp :: _ => inp
  | [] =>
    { key := Config.freeKey s.env.drawn, rand := Config.freeRand s.env.drawn,
      timerTick := Config.freeTimerTick s.env.drawn }

/-- `key[k]` (R32, R236). -/
def State.keyDown (s : State) (k : Nibble) : Bool := s.input.key.getLsbD k.toNat

/-- The least `k` in 0 to 15 with `key[k]` = 1 (R233, D9); none when no key is pressed. -/
def lowestKey (key : BitVec 16) : Option Nibble :=
  ((List.range 16).find? fun k => key.getLsbD k).map (BitVec.ofNat 4)

/-- The key that a register value names: its low nibble (R230, D10). -/
def keyIndex (b : Byte) : Nibble := b.extractLsb' 0 4

/-! ## Immediates and addresses -/

/-- `zext_16(nnn)` (R93). -/
def zextAddr (nnn : Addr12) : Word := nnn.setWidth 16

/-- `zext_16(b)` (R93, R147, R191). -/
def zextByte (b : Byte) : Word := b.setWidth 16

/-- The font address of a register value, all 8 bits of it: `V[x] * 5` (R192). -/
def fontAddr (b : Byte) : Word := zextByte b * 5

/-- The hundreds, tens and ones of a register value (R193). -/
def bcdDigits (b : Byte) : List Byte :=
  [BitVec.ofNat 8 (b.toNat / 100), BitVec.ofNat 8 (b.toNat / 10 % 10), BitVec.ofNat 8 (b.toNat % 10)]

/-- The number of registers that store-registers and load-registers move: `x` + 1 (R93, R194, R195). -/
def regCount (x : Nibble) : Nat := x.toNat + 1

/-- The values of V0 to `V[x]`, in that order (R194). -/
def State.regsUpTo (s : State) (x : Nibble) : List Byte := s.v.toList.take (regCount x)

end Sys2Proof.Machine
end

