-- ==== Sys2Proof/Machine/Alu.lean ====
section
/-!
DEFINITION. Register, arithmetic, logic, shift and random instructions (spec 42_alu.md R160 to R173). All advance by 2
and none faults. Operands are the values in `s`, before any write (R173, D7; notes/assumptions/8.md).
-/

namespace Sys2Proof.Machine

/-- `LD Vx, nn` (R160). -/
def execLdImm (x : Nibble) (nn : Byte) (s : State) : Host.Outcome State Fault Refusal :=
  .next (s.setV x nn).advance

/-- `ADD Vx, nn` (R161): no flag. -/
def execAddImm (x : Nibble) (nn : Byte) (s : State) : Host.Outcome State Fault Refusal :=
  .next (s.setV x (s.getV x + nn)).advance

/-- `LD Vx, Vy` (R162). -/
def execLdReg (x y : Nibble) (s : State) : Host.Outcome State Fault Refusal :=
  .next (s.setV x (s.getV y)).advance

/-- `OR Vx, Vy` (R163): no flag. -/
def execOrReg (x y : Nibble) (s : State) : Host.Outcome State Fault Refusal :=
  .next (s.setV x (s.getV x ||| s.getV y)).advance

/-- `AND Vx, Vy` (R164): no flag. -/
def execAndReg (x y : Nibble) (s : State) : Host.Outcome State Fault Refusal :=
  .next (s.setV x (s.getV x &&& s.getV y)).advance

/-- `XOR Vx, Vy` (R165): no flag. -/
def execXorReg (x y : Nibble) (s : State) : Host.Outcome State Fault Refusal :=
  .next (s.setV x (s.getV x ^^^ s.getV y)).advance

/-- `ADD Vx, Vy` (R166). -/
def execAddReg (x y : Nibble) (s : State) : Host.Outcome State Fault Refusal :=
  .next (s.setFlagged x (carryFlag (s.getV x) (s.getV y)) (s.getV x + s.getV y)).advance

/-- `SUB Vx, Vy` (R167). -/
def execSubReg (x y : Nibble) (s : State) : Host.Outcome State Fault Refusal :=
  .next (s.setFlagged x (noBorrowFlag (s.getV x) (s.getV y)) (s.getV x - s.getV y)).advance

/-- `SHR Vx` (R168): the `y` field is ignored. -/
def execShr (x _y : Nibble) (s : State) : Host.Outcome State Fault Refusal :=
  .next (s.setFlagged x (shiftedOutRight (s.getV x)) (s.getV x >>> 1)).advance

/-- `SUBN Vx, Vy` (R169). -/
def execSubnReg (x y : Nibble) (s : State) : Host.Outcome State Fault Refusal :=
  .next (s.setFlagged x (noBorrowFlag (s.getV y) (s.getV x)) (s.getV y - s.getV x)).advance

/-- `SHL Vx` (R170): the `y` field is ignored. -/
def execShl (x _y : Nibble) (s : State) : Host.Outcome State Fault Refusal :=
  .next (s.setFlagged x (shiftedOutLeft (s.getV x)) (s.getV x <<< 1)).advance

/-- `RND Vx, nn` (R171). -/
def execRnd (x : Nibble) (nn : Byte) (s : State) : Host.Outcome State Fault Refusal :=
  .next (s.setV x (s.input.rand &&& nn)).advance

end Sys2Proof.Machine
end

