-- ==== Sys2Proof/Machine/ControlFlow.lean ====
section
/-!
DEFINITION. Control-transfer instructions (spec 41_control_flow.md R140 to R148).
-/

namespace Sys2Proof.Machine

/-- `RET` (R140): the popped value is the address of the call, so 2 is added. StackUnderflow at `sp` = 0 (R253). -/
def execRet (s : State) : Host.Outcome State Fault Refusal :=
  match s.pop with
  | none => raise (.stackUnderflow (encodeWord .ret) s.pc)
  | some (a, t) => .next (t.jump a).advance

/-- `JP nnn` (R141). -/
def execJp (nnn : Addr12) (s : State) : Host.Outcome State Fault Refusal := .next (s.jump (zextAddr nnn))

/-- `CALL nnn` (R142): pushes the address of the call itself. StackOverflow at `sp` = 16 (R252). -/
def execCall (nnn : Addr12) (s : State) : Host.Outcome State Fault Refusal :=
  match s.push s.pc with
  | none => raise (.stackOverflow (encodeWord (.call nnn)) s.pc)
  | some t => .next (t.jump (zextAddr nnn))

/-- `SE Vx, nn` (R143). -/
def execSeImm (x : Nibble) (nn : Byte) (s : State) : Host.Outcome State Fault Refusal :=
  .next (s.skipIf (s.getV x == nn))

/-- `SNE Vx, nn` (R144). -/
def execSneImm (x : Nibble) (nn : Byte) (s : State) : Host.Outcome State Fault Refusal :=
  .next (s.skipIf (s.getV x != nn))

/-- `SE Vx, Vy` (R145). -/
def execSeReg (x y : Nibble) (s : State) : Host.Outcome State Fault Refusal :=
  .next (s.skipIf (s.getV x == s.getV y))

/-- `SNE Vx, Vy` (R146). -/
def execSneReg (x y : Nibble) (s : State) : Host.Outcome State Fault Refusal :=
  .next (s.skipIf (s.getV x != s.getV y))

/-- `JP V0, nnn` (R147): the whole 16-bit sum. -/
def execJpV0 (nnn : Addr12) (s : State) : Host.Outcome State Fault Refusal :=
  .next (s.jump (zextAddr nnn + zextByte (s.getV 0)))

end Sys2Proof.Machine
end

