-- ==== Sys2Proof/Machine/DisplayUnit.lean ====
section
/-!
DEFINITION. Display instructions and the sprite renderer (spec 44_display.md R210 to R214).
-/

namespace Sys2Proof.Machine

/-- `CLS` (R210): `redraw` is set whether or not a cell changed (R213). -/
def execCls (s : State) : Host.Outcome State Fault Refusal :=
  .next ({ s with disp := blankDisplay, redraw := true } : State).advance

/-- `DRW Vx, Vy, n` (R211): VF is 1 exactly when a set sprite bit landed on a cell that was 1; `redraw` is set always
(R213). The coordinates are read before VF is written (R173). -/
def execDrw (x y n : Nibble) (s : State) : Host.Outcome State Fault Refusal :=
  let c := s.drawRows (s.getV x) (s.getV y) n.toNat
  .next (({ s with disp := c.disp, redraw := true } : State).setV 0xF (flagByte c.hit)).advance

end Sys2Proof.Machine
end

