-- ==== Sys2Proof/Machine/IndexMemory.lean ====
section
/-!
DEFINITION. Index-register and memory instructions (spec 43_index_memory.md R190 to R196). All advance by 2 and none
faults.
-/

namespace Sys2Proof.Machine

/-- `LD I, nnn` (R190). -/
def execLdI (nnn : Addr12) (s : State) : Host.Outcome State Fault Refusal := .next (s.setI (zextAddr nnn)).advance

/-- `ADD I, Vx` (R191): 16 bits, no flag. -/
def execAddI (x : Nibble) (s : State) : Host.Outcome State Fault Refusal :=
  .next (s.setI (s.i + zextByte (s.getV x))).advance

/-- `LD F, Vx` (R192). -/
def execLdF (x : Nibble) (s : State) : Host.Outcome State Fault Refusal :=
  .next (s.setI (fontAddr (s.getV x))).advance

/-- `LD B, Vx` (R193): I unchanged. -/
def execLdB (x : Nibble) (s : State) : Host.Outcome State Fault Refusal :=
  .next (s.storeBytes s.i (bcdDigits (s.getV x))).advance

/-- `LD [I], Vx` (R194): I moves past the bytes stored. -/
def execLdMemVx (x : Nibble) (s : State) : Host.Outcome State Fault Refusal :=
  .next ((s.storeBytes s.i (s.regsUpTo x)).setI (s.effAddr (regCount x))).advance

/-- `LD Vx, [I]` (R195): I moves past the bytes loaded. -/
def execLdVxMem (x : Nibble) (s : State) : Host.Outcome State Fault Refusal :=
  .next ((s.loadRegs s.i (regCount x)).setI (s.effAddr (regCount x))).advance

end Sys2Proof.Machine
end

