-- ==== Sys2Proof/Machine/KeypadTimers.lean ====
section
/-!
DEFINITION. Keypad and timer instructions (spec 45_keypad_timers.md R230 to R236), and the timer updater of phase P4
(spec 60_exceptions.md R264, R265).
-/

namespace Sys2Proof.Machine

/-- `SKP Vx` (R230). -/
def execSkp (x : Nibble) (s : State) : Host.Outcome State Fault Refusal :=
  .next (s.skipIf (s.keyDown (keyIndex (s.getV x))))

/-- `SKNP Vx` (R231). -/
def execSknp (x : Nibble) (s : State) : Host.Outcome State Fault Refusal :=
  .next (s.skipIf (!s.keyDown (keyIndex (s.getV x))))

/-- `LD Vx, DT` (R232). -/
def execLdVxDT (x : Nibble) (s : State) : Host.Outcome State Fault Refusal := .next (s.setV x s.dt).advance

/-- The blocked form of `LD Vx, K`: only the output `waiting_for_key` is raised (R126, R233). -/
def State.waitForKey (s : State) : State := { s with out := { s.out with waitingForKey := true } }

/-- `LD Vx, K` (R233): blocks by leaving `pc` alone; else the lowest pressed key. -/
def execLdVxK (x : Nibble) (s : State) : Host.Outcome State Fault Refusal :=
  .next (match lowestKey s.input.key with
    | none => s.waitForKey
    | some k => (s.setV x (k.setWidth 8)).advance)

/-- `LD DT, Vx` (R234). -/
def execLdDTVx (x : Nibble) (s : State) : Host.Outcome State Fault Refusal :=
  .next ({ s with dt := s.getV x } : State).advance

/-- `LD ST, Vx` (R235). -/
def execLdSTVx (x : Nibble) (s : State) : Host.Outcome State Fault Refusal :=
  .next ({ s with st := s.getV x } : State).advance

/-- A timer after phase P4: one less where the tick is 1, but a timer at 0 stays there (R264). -/
def tickDown (tick : Bool) (t : Byte) : Byte := if t = 0 then t else if tick then t - 1 else t

/-- Phase P4 (R121, R264, R265): with the tick at 1 the timer updater runs, and `sound_trigger` is 1 exactly when it
found ST = 1. With the tick at 0 nothing changes. -/
def State.timerUpdate (s : State) (tick : Bool) : State :=
  { s with
    dt := tickDown tick s.dt
    st := tickDown tick s.st
    out := { s.out with soundTrigger := s.out.soundTrigger || (s.st == 1 && tick) } }

end Sys2Proof.Machine
end

