-- ==== Sys2Proof/Machine/Cycle.lean ====
section
/-!
DEFINITION. The cycle (spec 40_cycle_sequencer.md R120 to R130): its phases, and two ways to go on from a fault. `cycle`
is the hardware, which reports the fault and goes on; `runCycle` is the step of a run, which ends at the first fault (R258).
-/

namespace Sys2Proof.Machine

/-- The outputs of a cycle start clear (R121). -/
def State.beginCycle (s : State) : State := { s with out := Outputs.clear }

/-- The inputs of the cycle are used up, and a cycle has run (MODEL's own fields; notes/assumptions/2.md). -/
def State.nextInput (s : State) : State :=
  { s with env := { inputs := s.env.inputs.tail, drawn := s.env.drawn + 1, started := true } }

/-- Phase P4, and the end of the cycle (R121). -/
def State.endCycle (s : State) : State := (s.timerUpdate s.input.timerTick).nextInput

/-- Phases P1 to P3 (R121): fetch at `pc`, decode, execute. The fetch changes no state (R122). -/
def attempt (s : State) : Host.Outcome State Fault Refusal :=
  match decode [s.memRead s.pc, s.memRead (s.pc + 1)] with
  | .ok (i, _) => exec i s
  | .error _ => raise (.unsupportedOpcode s.fetchWord s.pc)

/-- The step of a run: one cycle, or the fault at which the run ends (R9, R258, D12, U1 to U3). -/
def runCycle (s : State) : Host.Outcome State Fault Refusal :=
  match attempt s.beginCycle with
  | .next t => .next t.endCycle
  | .fault f => .fault f
  | .refused r => .refused r

/-- One cycle of the hardware (R130). A faulting cycle keeps what the executor found, reports the fault on the output
pins and runs phase P4; the next cycle follows it like any other (R127, R257). -/
def cycle (s : State) : Host.Outcome State Fault Refusal :=
  match attempt s.beginCycle with
  | .next t => .next t.endCycle
  | .fault f => .next (s.beginCycle.reportFault f).endCycle
  | .refused r => .refused r

end Sys2Proof.Machine
end

