-- ==== Sys2Proof/Machine/Step.lean ====
section
/-!
DEFINITION. The step of the machine, and where it fetches its next instruction.
-/

namespace Sys2Proof.Machine

/-- One cycle; a fault ends the run (Machine/Cycle.lean, notes/assumptions/1.md). -/
def step (s : State) : Host.Outcome State Fault Refusal := runCycle s

/-- `s` with the word whose bits are `w` stored where the next cycle fetches it: at `pc`, first byte high (R64). -/
def State.withFetchWord (s : State) (nbits w : Nat) : State := s.placeWord (BitVec.ofNat 16 (w % 2 ^ nbits))

end Sys2Proof.Machine
end

