-- ==== Sys2Proof/Machine/HostMoves.lean ====
section
/-!
DEFINITION. The moves of the host between cycles (spec 10_state.md R36), the boot order (spec 70_reset_and_hazards.md
R290 to R296) and what the host reads of the core.
-/

namespace Sys2Proof.Machine

/-- The six host moves of R36. -/
inductive HostMove where
  /-- Reset: the Initializer runs (R290). -/
  | reset
  /-- LoadByte(a, v) (R271, R295). -/
  | loadByte (a : Word) (v : Byte)
  /-- Cycle(key, rand, timer_tick) (R120). -/
  | cycle (inp : CycleInput)
  /-- ReadDisplay (R268). -/
  | readDisplay
  /-- AckRedraw (R31, R268). -/
  | ackRedraw
  /-- Observe the outputs of the last cycle (R35). -/
  | observe
  deriving DecidableEq, Repr

/-- The Initializer, from any state (R290): the state of R38, with the font of this machine. The host's own queue and the count of free inputs drawn
are no state of the core and stay, so that no free value is drawn twice. -/
def State.runInitializer (s : State) : State :=
  { State.resetWith s.font with env := { inputs := s.env.inputs, drawn := s.env.drawn, started := false } }

/-- LoadByte: `MemWrite(a, 1, v)` for 0x200 <= a <= 0xFFF, after Reset and before the first cycle (R36, R295). -/
def State.loadByte (s : State) (a : Word) (v : Byte) : Host.Outcome State Fault Refusal :=
  if 0x200 ≤ a.toNat ∧ a.toNat ≤ 0xFFF ∧ s.env.started = false then .next (s.memWrite a v) else .refused .loadNotAllowed

/-- The host supplies the inputs of the coming cycle. -/
def State.supply (s : State) (inp : CycleInput) : State := { s with env := { s.env with inputs := inp :: s.env.inputs } }

/-- AckRedraw: `redraw <- 0`, and nothing else (R31). -/
def State.ackRedraw (s : State) : State := { s with redraw := false }

/-- What the renderer reads: the display and the redraw flag (R268). -/
def State.readDisplay (s : State) : Display × Bool := (s.disp, s.redraw)

/-- What the host observes of the last cycle (R35, R273). -/
def State.observe (s : State) : Outputs := s.out

/-- One host move. ReadDisplay and observe change nothing (R36). -/
def hostMove (m : HostMove) (s : State) : Host.Outcome State Fault Refusal :=
  match m with
  | .reset => .next s.runInitializer
  | .loadByte a v => s.loadByte a v
  | .cycle inp => cycle (s.supply inp)
  | .readDisplay => .next s
  | .ackRedraw => .next s.ackRedraw
  | .observe => .next s

/-- The program loader as the core sees it (R294, R295): the image at consecutive addresses from 0x200, after Reset; an
image longer than 3584 bytes is refused (U11). -/
def State.loadProgram (s : State) (image : List Byte) : Host.Outcome State Fault Refusal :=
  if image.length ≤ Config.maxImage ∧ s.env.started = false then .next (s.storeBytes Config.progBase image)
  else .refused .loadNotAllowed

end Sys2Proof.Machine
end

