-- ==== Sys2Proof/Safety.lean ====
section
/-!
DEFINITION. The terms in which claims are made: what is left unchanged, what an instruction of one shape does, the
invariant, the end of a run, what a sprite covers, and states that a program cannot tell apart.
-/

namespace Sys2Proof.Machine

/-! ## What is left unchanged -/

/-- Every general register is unchanged. -/
def SameRegs (s t : State) : Prop := ∀ r, t.getV r = s.getV r

/-- Every byte of memory is unchanged. -/
def SameMemory (s t : State) : Prop := ∀ a : Word, t.memRead a = s.memRead a

/-- The stack pointer and every stack entry are unchanged. -/
def SameStack (s t : State) : Prop := t.sp = s.sp ∧ ∀ k : Fin 16, t.stack[k] = s.stack[k]

/-- Every display cell and the redraw flag are unchanged. -/
def SameDisplay (s t : State) : Prop := (∀ yy xx, t.disp.get yy xx = s.disp.get yy xx) ∧ t.redraw = s.redraw

/-- Both timers are unchanged. -/
def SameTimers (s t : State) : Prop := t.dt = s.dt ∧ t.st = s.st

/-- The parameter `FONT`, the output pins and the host's side are unchanged. -/
def SameInterface (s t : State) : Prop := t.font = s.font ∧ t.out = s.out ∧ t.env = s.env

/-- Everything but the general registers, I and `pc` is unchanged. -/
def SameOutside (s t : State) : Prop :=
  SameMemory s t ∧ SameStack s t ∧ SameDisplay s t ∧ SameTimers s t ∧ SameInterface s t

/-! ## What an instruction of one shape does. Each begins with the encoding: the row of R95 the word lies in. -/

/-- The encoding of `i` lies in the row with this mask and match (R95). -/
def InRow (i : Instr) (mask pattern : Word) : Prop := encodeWord i &&& mask = pattern

/-- The instruction runs, advances, writes `b` to `V[x]`, and changes nothing else. -/
def WritesRegister (i : Instr) (s : State) (x : Nibble) (b : Byte) : Prop :=
  ∃ t, exec i s = .next t ∧ t.pc = s.pc + 2 ∧ t.getV x = b ∧ (∀ r, r ≠ x → t.getV r = s.getV r) ∧ t.i = s.i ∧
    SameOutside s t

/-- The instruction runs, advances, writes `flag` to VF and then `b` to `V[x]`, so that with `x` = 15 VF holds `b`, and
changes nothing else (R173). -/
def WritesFlagged (i : Instr) (s : State) (x : Nibble) (flag b : Byte) : Prop :=
  ∃ t, exec i s = .next t ∧ t.pc = s.pc + 2 ∧ t.getV x = b ∧ (x ≠ 0xF → t.getV 0xF = flag) ∧
    (∀ r, r ≠ x → r ≠ 0xF → t.getV r = s.getV r) ∧ t.i = s.i ∧ SameOutside s t

/-- The instruction runs, skips one instruction if `c` holds and advances if not, and changes nothing else. -/
def SkipsWhen (i : Instr) (s : State) (c : Prop) : Prop :=
  ∃ t, exec i s = .next t ∧ (c → t.pc = s.pc + 4) ∧ (¬ c → t.pc = s.pc + 2) ∧ SameRegs s t ∧ t.i = s.i ∧
    SameOutside s t

/-- The instruction runs, sets `pc` to the number `a`, and changes nothing else. -/
def JumpsTo (i : Instr) (s : State) (a : Nat) : Prop :=
  ∃ t, exec i s = .next t ∧ t.pc.toNat = a ∧ SameRegs s t ∧ t.i = s.i ∧ SameOutside s t

/-- The instruction runs, advances, sets I to the number `a`, and changes nothing else. -/
def SetsIndex (i : Instr) (s : State) (a : Nat) : Prop :=
  ∃ t, exec i s = .next t ∧ t.pc = s.pc + 2 ∧ t.i.toNat = a ∧ SameRegs s t ∧ SameOutside s t

/-- What each instruction may leave in `pc` when it runs at state `s` (R124, with the targets of R140 to R142 and R147
and the conditions of R143 to R146, R230, R231 and R233): an advance where no row says otherwise. -/
def PcPolicy (i : Instr) (s : State) (a : Word) : Prop :=
  match i with
  | .jp nnn => a = zextAddr nnn
  | .call nnn => a = zextAddr nnn
  | .jpV0 nnn => a = zextAddr nnn + zextByte (s.getV 0)
  | .ret => ∃ k : Fin 16, s.sp.val = k.val + 1 ∧ a = s.stack[k] + 2
  | .seImm x nn => a = if s.getV x = nn then s.pc + 4 else s.pc + 2
  | .sneImm x nn => a = if s.getV x ≠ nn then s.pc + 4 else s.pc + 2
  | .seReg x y => a = if s.getV x = s.getV y then s.pc + 4 else s.pc + 2
  | .sneReg x y => a = if s.getV x ≠ s.getV y then s.pc + 4 else s.pc + 2
  | .skp x => a = if s.keyDown (keyIndex (s.getV x)) = true then s.pc + 4 else s.pc + 2
  | .sknp x => a = if s.keyDown (keyIndex (s.getV x)) = false then s.pc + 4 else s.pc + 2
  | .ldVxK _ => a = if s.input.key = 0 then s.pc else s.pc + 2
  | _ => a = s.pc + 2

/-! ## Sprites -/

/-- The sprite column that lands on column `x` when the left edge is at `vx`: `(x - vx) mod 64`. -/
def spriteCol (vx : Byte) (x : Fin 64) : Nat := (x.val + 64 - vx.toNat % 64) % 64

/-- The sprite row that lands on row `y` when the top edge is at `vy`: `(y - vy) mod 32`. -/
def spriteRow (vy : Byte) (y : Fin 32) : Nat := (y.val + 32 - vy.toNat % 32) % 32

/-- The bit of the sprite at I, `n` rows high with its corner at column `vx`, row `vy`, that lands on the cell at row
`y`, column `x`; false outside the sprite. -/
def State.spriteBit (s : State) (vx vy : Byte) (n : Nat) (y : Fin 32) (x : Fin 64) : Bool :=
  decide (spriteRow vy y < n) && decide (spriteCol vx x < 8) &&
    (s.memRead (s.effAddr (spriteRow vy y))).getLsbD (7 - spriteCol vx x)

/-! ## Invariants -/

/-- What every cycle and every move of the host keep: memory is in its canonical form; the sound trigger shows only
with ST at 0 (R265); a core that waits for a key still stands on the `LD Vx, K` it waits at (R37, R126); a fault on the
pins is the fault the next cycle raises (R258). -/
structure State.Inv (s : State) : Prop where
  mem : s.memWf
  sound : s.out.soundTrigger = true → s.st = 0
  waiting : s.out.waitingForKey = true → s.env.started = true ∧ ∃ x, decodeWord s.fetchWord = some (.ldVxK x)
  fault : ∀ f, s.out.fault = some f → s.env.started = true ∧ step s = .fault f

/-- The next cycle does not fault. -/
def SafeCycle (s : State) : Prop := ∀ f, step s ≠ .fault f

/-- The end of a run (R304): `pc` holds the address of a `JP nnn` whose `nnn` equals that address. -/
def EndOfRun (s : State) : Prop := ∃ nnn, decodeWord s.fetchWord = some (.jp nnn) ∧ s.pc = zextAddr nnn

/-! ## Which instructions write which element of the state (R20, R21, R22) -/

/-- The instructions that write main memory: store-bcd and store-registers. -/
def writesMemory : Instr → Bool
  | .ldB _ | .ldMemVx _ => true
  | _ => false

/-- The instructions that write I. -/
def writesIndex : Instr → Bool
  | .ldI _ | .addI _ | .ldF _ | .ldMemVx _ | .ldVxMem _ => true
  | _ => false

/-- The instructions that write the stack pointer: call and return. -/
def writesStackPointer : Instr → Bool
  | .call _ | .ret => true
  | _ => false

/-- The instruction that writes a stack entry: call. A return reads one and leaves it (R26). -/
def writesStackEntries : Instr → Bool
  | .call _ => true
  | _ => false

/-- The instructions that write the display and the redraw flag: clear-screen and draw-sprite. -/
def writesDisplay : Instr → Bool
  | .cls | .drw _ _ _ => true
  | _ => false

/-- The instruction that writes DT. -/
def writesDelayTimer : Instr → Bool
  | .ldDTVx _ => true
  | _ => false

/-- The instruction that writes ST. -/
def writesSoundTimer : Instr → Bool
  | .ldSTVx _ => true
  | _ => false

/-- Whether the instruction may write register `r` other than as a flag: register `x`, or registers 0 to `x` for
load-registers (R21). -/
def namesDestination (r : Nibble) : Instr → Bool
  | .ldImm x _ | .addImm x _ | .ldReg x _ | .orReg x _ | .andReg x _ | .xorReg x _ | .addReg x _ | .subReg x _
  | .shr x _ | .subnReg x _ | .shl x _ | .rnd x _ | .ldVxDT x | .ldVxK x => r == x
  | .ldVxMem x => decide (r ≤ x)
  | _ => false

/-- The six instructions that write VF as a flag (R22). -/
def writesFlag : Instr → Bool
  | .addReg _ _ | .subReg _ _ | .shr _ _ | .subnReg _ _ | .shl _ _ | .drw _ _ _ => true
  | _ => false

/-- The instructions that read the keypad (R32, R236). -/
def readsKeypad : Instr → Bool
  | .skp _ | .sknp _ | .ldVxK _ => true
  | _ => false

/-- The instruction that reads the random byte (R33). -/
def readsRandom : Instr → Bool
  | .rnd _ _ => true
  | _ => false

/-! ## States that a program cannot tell apart -/

/-- Two outcomes of the same kind: next states that `R` relates, or the same fault, or the same refusal. -/
def SameOutcome (R : State → State → Prop) : Host.Outcome State Fault Refusal → Host.Outcome State Fault Refusal → Prop
  | .next s, .next t => R s t
  | .fault f, .fault g => f = g
  | .refused a, .refused b => a = b
  | _, _ => False

/-- The two states differ at most in bits 15 to 12 of I (R23). -/
def DifferInHighIndex (s t : State) : Prop := t = { s with i := t.i } ∧ lineOf t.i = lineOf s.i

/-- The two states differ at most in stack entries at `sp` and above (R26). -/
def DifferInStaleStack (s t : State) : Prop :=
  t = { s with stack := t.stack } ∧ ∀ k : Fin 16, k.val < s.sp.val → t.stack[k] = s.stack[k]

/-- The two states differ at most in ST, the redraw flag and the output pins (R37). -/
def DifferInUnreadable (s t : State) : Prop := t = { s with st := t.st, redraw := t.redraw, out := t.out }

/-- The two states differ at most in the parameter `FONT`, and their memories read alike (R292). -/
def DifferInFont (s t : State) : Prop := t = { s with mem := t.mem, font := t.font } ∧ SameMemory s t

/-- The two states differ at most in the host's side. -/
def DifferInHost (s t : State) : Prop := t = { s with env := t.env }

end Sys2Proof.Machine
end

