-- ==== Sys2Proof/Certificates/Slice0/Obligations.lean ====
section
/-!
DEFINITION. The statements for the provers, from the numbered rules of the spec. In a statement `s` is the state an
instruction or a cycle finds, `t` and `u` what it leaves. The words for shapes and frames are in Sys2Proof/Safety.lean.
-/

open Sys2Proof Sys2Proof.Machine

/-! ## Encoding -/

/-- Words written out from the patterns of R95 decode to the instructions they stand for: at least one of each of the 16
families and of each of the six formats; and two words of no row decode to none. The patterns are the spec's own choice
D2, the strictness D3 (notes/assumptions/5.md). -/
def Obligations.SampleWordsDecode : Prop :=
  decodeWord 0x00E0 = some .cls ∧ decodeWord 0x00EE = some .ret ∧ decodeWord 0x1ABC = some (.jp 0xABC) ∧
  decodeWord 0x2DEF = some (.call 0xDEF) ∧ decodeWord 0x3A42 = some (.seImm 0xA 0x42) ∧
  decodeWord 0x4B17 = some (.sneImm 0xB 0x17) ∧ decodeWord 0x5C30 = some (.seReg 0xC 0x3) ∧
  decodeWord 0x6A7F = some (.ldImm 0xA 0x7F) ∧ decodeWord 0x7B01 = some (.addImm 0xB 0x01) ∧
  decodeWord 0x8AB4 = some (.addReg 0xA 0xB) ∧ decodeWord 0x9D40 = some (.sneReg 0xD 0x4) ∧
  decodeWord 0xA123 = some (.ldI 0x123) ∧ decodeWord 0xB987 = some (.jpV0 0x987) ∧
  decodeWord 0xCA0F = some (.rnd 0xA 0x0F) ∧ decodeWord 0xD125 = some (.drw 0x1 0x2 0x5) ∧
  decodeWord 0xEA9E = some (.skp 0xA) ∧ decodeWord 0xF255 = some (.ldMemVx 0x2) ∧
  decodeWord 0x0000 = none ∧ decodeWord 0x5AB1 = none

/-- Decoding the bytes of any instruction gives it back, with every operand, and leaves the bytes after it. -/
def Obligations.DecodeOfEncodeIsIdentity : Prop :=
  ∀ (i : Instr) (rest : List Byte), decode (encode i ++ rest) = .ok (i, rest)

/-- A word that decodes is the word of the instruction it decodes to: no two words decode to one instruction. -/
def Obligations.EncodeOfDecodeIsIdentity : Prop :=
  ∀ (w : Word) (i : Instr), decodeWord w = some i → encodeWord i = w

/-- The table of R95: 34 rows, pairwise disjoint, and the decoder gives a word the instruction of the one row that
accepts it, or none where no row does (R96, R97). The rows and the strict matching are the spec's own choices D2 and D3
(notes/assumptions/5.md). -/
def Obligations.DecoderFollowsOpcodeTable : Prop :=
  opcodeTable.length = 34 ∧
  (∀ r ∈ opcodeTable, ∀ q ∈ opcodeTable, ∀ w : Word, r.accepts w = true → q.accepts w = true → r = q) ∧
  (∀ (w : Word) (i : Instr), decodeWord w = some i →
    ∃ r ∈ opcodeTable, r.mnemonic = mnemonicOf i ∧ w &&& r.mask = r.pattern) ∧
  (∀ (w : Word), ∀ r ∈ opcodeTable, w &&& r.mask = r.pattern →
    ∃ i, decodeWord w = some i ∧ mnemonicOf i = r.mnemonic)

/-! ## The cycle -/

/-- The fetch: first byte high, both addresses modulo 4096, no alignment (R64, R122). The wrapping of addresses and of
`pc` is the spec's own choice D5, D6 (notes/assumptions/6.md). -/
def Obligations.FetchIsBigEndianAndWraps : Prop :=
  ∀ s : State, s.fetchWord.toNat =
    (s.mem.read s.font (s.pc.toNat % 4096)).toNat * 256 +
      (s.mem.read s.font ((s.pc.toNat + 1) % 65536 % 4096)).toNat

/-- A step runs the instruction that the two bytes at `pc` decode to, with clear outputs, and then the timers (R121,
R130). Where the instruction faults, the run ends with that fault: the model's choice, after R258 (notes/assumptions/1.md).
-/
def Obligations.StepRunsDecodedInstruction : Prop :=
  ∀ (s : State) (i : Instr), decode [s.memRead s.pc, s.memRead (s.pc + 1)] = .ok (i, []) →
    (∀ f, exec i s.beginCycle = .fault f → step s = .fault f) ∧
    (∀ t, exec i s.beginCycle = .next t → step s = .next { t with
      dt := if s.input.timerTick = true ∧ t.dt ≠ 0 then t.dt - 1 else t.dt
      st := if s.input.timerTick = true ∧ t.st ≠ 0 then t.st - 1 else t.st
      out := { t.out with soundTrigger := s.input.timerTick && t.st == 1 }
      env := { inputs := s.env.inputs.tail, drawn := s.env.drawn + 1, started := true } })

/-- A step goes on exactly where it does not fault, so nothing is refused (R9), and it faults exactly in the three cases
of R250 (R255). That a fault ends the step is the model's choice, after R258 (notes/assumptions/1.md). -/
def Obligations.OnlyThreeFaultsExist : Prop :=
  ∀ s : State, (SafeCycle s ↔ ∃ u, step s = .next u) ∧
    ∀ f, step s = .fault f ↔
      (decodeWord s.fetchWord = none ∧ f = .unsupportedOpcode s.fetchWord s.pc) ∨
      (∃ nnn, decodeWord s.fetchWord = some (.call nnn) ∧ s.sp.val = 16 ∧ f = .stackOverflow s.fetchWord s.pc) ∨
      (decodeWord s.fetchWord = some .ret ∧ s.sp.val = 0 ∧ f = .stackUnderflow 0x00EE s.pc)

/-- A word that no row of R95 accepts: the step faults with code 1, the raw word and its address, and the hardware's
cycle mutates nothing but the timers and does not advance `pc` (R251). The code is the spec's own choice D11, the timers
D13; that the step of a run ends here is the model's (notes/assumptions/1.md). -/
def Obligations.UnsupportedWordIsReported : Prop :=
  ∀ s : State, (∀ r ∈ opcodeTable, r.accepts s.fetchWord = false) →
    ∃ f u, step s = .fault f ∧ f.code = 1 ∧ f.word = s.fetchWord ∧ f.addr = s.pc ∧
      cycle s = .next u ∧ u.out.fault = some f ∧ u.pc = s.pc ∧ u.i = s.i ∧ SameRegs s u ∧ SameMemory s u ∧
      SameStack s u ∧ SameDisplay s u

/-- A faulting cycle of the hardware: the report is on the pins and phase P4 still runs; nothing else changes (R256,
R257). The report and the timers are the spec's own choices D11, D13 (notes/assumptions/1.md). -/
def Obligations.FaultingCycleChangesOnlyTimers : Prop :=
  ∀ (s : State) (f : Fault), step s = .fault f →
    ∃ u, cycle s = .next u ∧ u.out.fault = some f ∧ f.word = s.fetchWord ∧ f.addr = s.pc ∧
      u.out.waitingForKey = false ∧ u.pc = s.pc ∧ u.i = s.i ∧ SameRegs s u ∧ SameMemory s u ∧ SameStack s u ∧
      SameDisplay s u ∧
      (s.input.timerTick = true → u.dt.toNat = s.dt.toNat - 1 ∧ u.st.toNat = s.st.toNat - 1) ∧
      (s.input.timerTick = false → u.dt = s.dt ∧ u.st = s.st) ∧
      (u.out.soundTrigger = true ↔ s.input.timerTick = true ∧ s.st = 1)

/-- A fault recurs in the next cycle, whatever its inputs are (R258, derived there from D13). -/
def Obligations.FaultRepeatsEveryCycle : Prop :=
  ∀ (s u : State) (f : Fault), step s = .fault f → cycle s = .next u → step u = .fault f

/-- Phase P4 (R264, R265): with the tick, each timer loses one and stays at 0 there; without it, none changes; and the
sound trigger is 1 exactly when the updater ran and found ST = 1. `t` is what the instruction of the cycle left. The tick
as an input is the spec's own choice D14, the one-cycle pulse D26 (notes/assumptions/2.md, 13.md). -/
def Obligations.TimersTickAfterInstruction : Prop :=
  ∀ (s t u : State), attempt s.beginCycle = .next t → cycle s = .next u →
    (s.input.timerTick = true → u.dt.toNat = t.dt.toNat - 1 ∧ u.st.toNat = t.st.toNat - 1) ∧
    (s.input.timerTick = false → u.dt = t.dt ∧ u.st = t.st) ∧
    (u.out.soundTrigger = true ↔ s.input.timerTick = true ∧ t.st = 1)

/-- Inside one cycle a timer is read before it ticks and written before it ticks (R300). -/
def Obligations.TimerAccessPrecedesTick : Prop :=
  ∀ (s : State) (x : Nibble), s.input.timerTick = true →
    (decodeWord s.fetchWord = some (.ldVxDT x) →
      ∃ u, step s = .next u ∧ u.getV x = s.dt ∧ u.dt.toNat = s.dt.toNat - 1) ∧
    (decodeWord s.fetchWord = some (.ldDTVx x) →
      ∃ u, step s = .next u ∧ u.dt.toNat = (s.getV x).toNat - 1) ∧
    (decodeWord s.fetchWord = some (.ldSTVx x) →
      ∃ u, step s = .next u ∧ u.st.toNat = (s.getV x).toNat - 1 ∧ (u.out.soundTrigger = true ↔ s.getV x = 1))

/-- A blocked cycle: `waiting_for_key` is raised, `pc` stays, the timers run, nothing else changes, and the word at
`pc` is still the wait (R126). That no mode is stored and that the timers run is the spec's own choice D27, D29
(notes/assumptions/12.md, 13.md). -/
def Obligations.BlockedCycleOnlyTicks : Prop :=
  ∀ (s : State) (x : Nibble), decodeWord s.fetchWord = some (.ldVxK x) → s.input.key = 0 →
    ∃ u, step s = .next u ∧ u.out.waitingForKey = true ∧ u.pc = s.pc ∧ u.i = s.i ∧ SameRegs s u ∧ SameMemory s u ∧
      SameStack s u ∧ SameDisplay s u ∧
      (s.input.timerTick = true → u.dt.toNat = s.dt.toNat - 1 ∧ u.st.toNat = s.st.toNat - 1) ∧
      (s.input.timerTick = false → u.dt = s.dt ∧ u.st = s.st) ∧ u.fetchWord = s.fetchWord

/-- At the end of a run every cycle leaves the state unchanged except that the timers run down, and the run is still at
its end (R304, the spec's own convention for models, D22; notes/assumptions/19.md). -/
def Obligations.EndOfRunIsStable : Prop :=
  ∀ s : State, EndOfRun s →
    ∃ u, step s = .next u ∧ EndOfRun u ∧ u.pc = s.pc ∧ u.i = s.i ∧ SameRegs s u ∧ SameMemory s u ∧ SameStack s u ∧
      SameDisplay s u ∧ u.dt.toNat ≤ s.dt.toNat ∧ u.st.toNat ≤ s.st.toNat

/-! ## Memory -/

/-- A write replaces the byte of its address modulo 4096 and no other, and a read sees the latest write (R62, R63). That
addresses equal modulo 4096 are one is the spec's own choice D5 (notes/assumptions/6.md); that memory has a canonical
form, which the write keeps, is the model's (notes/assumptions/7.md). -/
def Obligations.MemoryReadSeesLatestWrite : Prop :=
  ∀ (s : State) (a : Word) (v : Byte), s.memWf →
    (∀ b : Word, b.toNat % 4096 = a.toNat % 4096 → (s.memWrite a v).memRead b = v) ∧
    (∀ b : Word, b.toNat % 4096 ≠ a.toNat % 4096 → (s.memWrite a v).memRead b = s.memRead b) ∧
    (s.memWrite a v).memWf

/-- Registers that store-registers put into memory are the word that a later fetch reads there (R71), at every address
that equals theirs modulo 4096: the spec's own choice D5 (notes/assumptions/6.md). The canonical form of memory is the
model's (notes/assumptions/7.md). -/
def Obligations.StoredRegistersAreFetched : Prop :=
  ∀ (s t : State) (x : Nibble) (k : Nat) (a : Word), s.memWf → k < x.toNat → exec (.ldMemVx x) s = .next t →
    a.toNat % 4096 = (s.i.toNat + k) % 4096 →
    (t.jump a).fetchWord.toNat =
      (s.getV (BitVec.ofNat 4 k)).toNat * 256 + (s.getV (BitVec.ofNat 4 (k + 1))).toNat

/-! ## Reset, boot, host -/

/-- Every element of the state after reset (R38), whatever the bytes of the parameter `FONT` are; `State.reset` is such a
state. -/
def Obligations.ResetStateIsAsStated : Prop :=
  (∃ font, State.reset = State.resetWith font) ∧
  ∀ (font : Config.Font) (s : State), s = State.resetWith font →
    (∀ (a : Word) (h : a.toNat < 80), s.memRead a = font[a.toNat]) ∧
    (∀ a : Word, 80 ≤ a.toNat → a.toNat < 4096 → s.memRead a = 0) ∧
    (∀ r, s.getV r = 0) ∧ s.i = 0 ∧ s.pc = 0x0200 ∧ s.sp.val = 0 ∧ (∀ k : Fin 16, s.stack[k] = 0) ∧
    (∀ yy xx, s.disp.get yy xx = false) ∧ s.dt = 0 ∧ s.st = 0 ∧ s.redraw = true ∧
    s.out.soundTrigger = false ∧ s.out.fault = none ∧ s.out.waitingForKey = false

/-- The Reset move gives, from any state, the state after reset of a machine with the same `FONT`, and a second one changes nothing (R290, R293; one atomic
step by the spec's own choice D23, notes/assumptions/20.md). That the model's own queue of inputs and its count stay is the
model's choice (notes/assumptions/3.md). -/
def Obligations.ResetMoveForgetsTheState : Prop :=
  ∀ s : State, ∃ t, hostMove .reset s = .next t ∧ t = { State.resetWith s.font with env := t.env } ∧
    hostMove .reset t = .next t ∧
    t.env.started = false ∧ t.env.inputs = s.env.inputs ∧ t.env.drawn = s.env.drawn

/-- The other moves between cycles (R36): LoadByte before the first cycle is one memory write, and refused outside 0x200
to 0xFFF or after a cycle; AckRedraw clears the redraw flag and nothing else; ReadDisplay and observe change nothing. The
Cycle move is one cycle with the inputs it is given, which it takes from no queue; it always goes on, and it is the step
of a run wherever that goes on (R120, R130). The moves are the spec's own choice D1, D17; the refusal and the queue are
the model's, after U11 and U16 (notes/assumptions/2.md, 3.md). -/
def Obligations.HostMovesBetweenCycles : Prop :=
  ∀ (s : State) (a : Word) (v : Byte) (inp : CycleInput),
    (0x200 ≤ a.toNat → a.toNat ≤ 0xFFF → s.env.started = false →
      hostMove (.loadByte a v) s = .next (s.memWrite a v)) ∧
    (a.toNat < 0x200 ∨ 0xFFF < a.toNat ∨ s.env.started = true →
      hostMove (.loadByte a v) s = .refused .loadNotAllowed) ∧
    hostMove .ackRedraw s = .next { s with redraw := false } ∧
    hostMove .readDisplay s = .next s ∧ s.readDisplay = (s.disp, s.redraw) ∧
    hostMove .observe s = .next s ∧ s.observe = s.out ∧
    hostMove (.cycle inp) s = cycle (s.supply inp) ∧ (s.supply inp).input = inp ∧
    s.supply inp = { s with env := (s.supply inp).env } ∧
    (∃ t, hostMove (.cycle inp) s = .next t ∧ t.env.inputs = s.env.inputs) ∧
    (∀ u, step s = .next u → cycle s = .next u)

/-- A program image of at most 3584 bytes loads at consecutive addresses from 0x200 and changes nothing else; a longer
one is refused (R294, R295). The refusal is the model's choice, after U11 (notes/assumptions/3.md). -/
def Obligations.ProgramLoadsFromProgramBase : Prop :=
  ∀ (s : State) (image : List Byte), s.memWf → s.env.started = false →
    (3584 < image.length → s.loadProgram image = .refused .loadNotAllowed) ∧
    (image.length ≤ 3584 → ∃ t, s.loadProgram image = .next t ∧
      (∀ (k : Nat) (h : k < image.length), t.memRead (BitVec.ofNat 16 (0x200 + k)) = image[k]) ∧
      (∀ b : Word, b.toNat % 4096 < 0x200 ∨ 0x200 + image.length ≤ b.toNat % 4096 → t.memRead b = s.memRead b) ∧
      t = { s with mem := t.mem })

/-! ## Invariants -/

/-- The invariant holds after reset, whatever the bytes of `FONT` are. -/
def Obligations.ResetMeetsInvariant : Prop := State.reset.Inv ∧ ∀ font, (State.resetWith font).Inv

/-- Every step keeps the invariant. -/
def Obligations.StepKeepsInvariant : Prop := ∀ s u : State, s.Inv → step s = .next u → u.Inv

/-- Every move of the host keeps the invariant, the cycles that fault among them: in particular, a fault that a move
leaves on the pins is the fault of the next step. -/
def Obligations.HostMovesKeepInvariant : Prop :=
  ∀ (m : HostMove) (s t : State), s.Inv → hostMove m s = .next t → t.Inv

/-! ## Control flow -/

/-- `JP nnn` and `JP V0, nnn` (R141, R147). In this statement and in those below, the encodings are numbers of the spec's
own choice D2 that the instruction rules repeat (notes/assumptions/5.md). -/
def Obligations.JumpsSetProgramCounter : Prop :=
  ∀ (s : State) (nnn : Addr12),
    InRow (.jp nnn) 0xF000 0x1000 ∧ JumpsTo (.jp nnn) s nnn.toNat ∧
    InRow (.jpV0 nnn) 0xF000 0xB000 ∧ JumpsTo (.jpV0 nnn) s (nnn.toNat + (s.getV 0).toNat)

/-- `CALL nnn` below the stack's capacity pushes its own address; at `sp` = 16 it is StackOverflow, code 2, with its word
and its address, and the hardware's cycle leaves stack, `sp` and `pc` (R142, R252). That `exec` answers the fault is the
model's choice (notes/assumptions/1.md); the code is the spec's own D11, the state after the fault its own D12, which U1
warns to rest no claim of a run on (notes/assumptions/17.md). -/
def Obligations.CallPushesItsAddress : Prop :=
  ∀ (s : State) (nnn : Addr12), InRow (.call nnn) 0xF000 0x2000 ∧
    (s.sp.val < 16 → ∃ t, exec (.call nnn) s = .next t ∧ t.pc.toNat = nnn.toNat ∧ t.sp.val = s.sp.val + 1 ∧
      (∀ k : Fin 16, t.stack[k] = if k.val = s.sp.val then s.pc else s.stack[k]) ∧
      SameRegs s t ∧ t.i = s.i ∧ SameMemory s t ∧ SameDisplay s t ∧ SameTimers s t ∧ SameInterface s t) ∧
    (s.sp.val = 16 → ∃ f, exec (.call nnn) s = .fault f ∧ f = .stackOverflow (encodeWord (.call nnn)) s.pc ∧
      f.code = 2 ∧
      (decodeWord s.fetchWord = some (.call nnn) →
        ∃ u, cycle s = .next u ∧ u.out.fault = some f ∧ SameStack s u ∧ u.pc = s.pc))

/-- `RET` with a held address pops it and adds 2; at `sp` = 0 it is StackUnderflow, code 3, with the word 0x00EE and its
address, and the hardware's cycle leaves stack, `sp` and `pc` (R140, R253). That `exec` answers the fault is the model's
choice (notes/assumptions/1.md); the code is the spec's own D11, the state after the fault its own D12, which U2 warns to
rest no claim of a run on (notes/assumptions/17.md). -/
def Obligations.ReturnPopsAndAddsTwo : Prop :=
  ∀ s : State, encodeWord .ret = 0x00EE ∧
    (0 < s.sp.val → ∃ t, ∃ k : Fin 16, exec .ret s = .next t ∧ s.sp.val = k.val + 1 ∧ t.sp.val = k.val ∧
      t.pc = s.stack[k] + 2 ∧ (∀ j : Fin 16, t.stack[j] = s.stack[j]) ∧
      SameRegs s t ∧ t.i = s.i ∧ SameMemory s t ∧ SameDisplay s t ∧ SameTimers s t ∧ SameInterface s t) ∧
    (s.sp.val = 0 → ∃ f, exec .ret s = .fault f ∧ f = .stackUnderflow 0x00EE s.pc ∧ f.code = 3 ∧
      (decodeWord s.fetchWord = some .ret →
        ∃ u, cycle s = .next u ∧ u.out.fault = some f ∧ SameStack s u ∧ u.pc = s.pc))

/-- A call followed by a return comes back to the instruction after the call, with the stack pointer it had. -/
def Obligations.CallThenReturnRoundTrip : Prop :=
  ∀ (s : State) (nnn : Addr12), s.sp.val < 16 →
    ∃ t u, exec (.call nnn) s = .next t ∧ exec .ret t = .next u ∧ u.pc = s.pc + 2 ∧ u.sp = s.sp

/-- The four skips on registers and immediates (R143 to R146). -/
def Obligations.SkipsOnComparison : Prop :=
  ∀ (s : State) (x y : Nibble) (nn : Byte),
    InRow (.seImm x nn) 0xF000 0x3000 ∧ SkipsWhen (.seImm x nn) s (s.getV x = nn) ∧
    InRow (.sneImm x nn) 0xF000 0x4000 ∧ SkipsWhen (.sneImm x nn) s (s.getV x ≠ nn) ∧
    InRow (.seReg x y) 0xF00F 0x5000 ∧ SkipsWhen (.seReg x y) s (s.getV x = s.getV y) ∧
    InRow (.sneReg x y) 0xF00F 0x9000 ∧ SkipsWhen (.sneReg x y) s (s.getV x ≠ s.getV y)

/-- The two skips on a key (R230, R231). That the low nibble of `V[x]` names it is the spec's own choice D10
(notes/assumptions/9.md). -/
def Obligations.SkipsOnKey : Prop :=
  ∀ (s : State) (x : Nibble),
    InRow (.skp x) 0xF0FF 0xE09E ∧ SkipsWhen (.skp x) s (s.input.key.getLsbD ((s.getV x).toNat % 16) = true) ∧
    InRow (.sknp x) 0xF0FF 0xE0A1 ∧ SkipsWhen (.sknp x) s (s.input.key.getLsbD ((s.getV x).toNat % 16) = false)

/-- The program-counter policy (R124), over all instructions, for the instruction and for the whole cycle: fetch, decode
and the timers leave `pc`, so what the instruction does to it is what the cycle does; and a faulting cycle keeps it. That
the low nibble of `V[x]` names the key of `SKP` and `SKNP` is the spec's own choice D10 (notes/assumptions/9.md), that a
faulting `CALL` or `RET` writes nothing D12 (notes/assumptions/17.md); that a fault ends the step is the model's
(notes/assumptions/1.md). -/
def Obligations.ProgramCounterPolicy : Prop :=
  (∀ (i : Instr) (s t : State), exec i s = .next t → PcPolicy i s t.pc) ∧
  (∀ (i : Instr) (s u : State), decodeWord s.fetchWord = some i → step s = .next u → PcPolicy i s u.pc) ∧
  (∀ (s u : State) (f : Fault), step s = .fault f → cycle s = .next u → u.pc = s.pc)

/-! ## Arithmetic and logic -/

/-- The moves, the sum without flag, the logic and the random instruction write one register (R160 to R165, R171). For
`RND` the random byte is that of the cycle, whatever it is (notes/assumptions/2.md). -/
def Obligations.MovesAndLogicWriteOneRegister : Prop :=
  ∀ (s : State) (x y : Nibble) (nn : Byte),
    InRow (.ldImm x nn) 0xF000 0x6000 ∧ WritesRegister (.ldImm x nn) s x nn ∧
    InRow (.addImm x nn) 0xF000 0x7000 ∧
      WritesRegister (.addImm x nn) s x (BitVec.ofNat 8 (((s.getV x).toNat + nn.toNat) % 256)) ∧
    InRow (.ldReg x y) 0xF00F 0x8000 ∧ WritesRegister (.ldReg x y) s x (s.getV y) ∧
    InRow (.orReg x y) 0xF00F 0x8001 ∧ WritesRegister (.orReg x y) s x (s.getV x ||| s.getV y) ∧
    InRow (.andReg x y) 0xF00F 0x8002 ∧ WritesRegister (.andReg x y) s x (s.getV x &&& s.getV y) ∧
    InRow (.xorReg x y) 0xF00F 0x8003 ∧ WritesRegister (.xorReg x y) s x (s.getV x ^^^ s.getV y) ∧
    InRow (.rnd x nn) 0xF000 0xC000 ∧ WritesRegister (.rnd x nn) s x (s.input.rand &&& nn)

/-- The five that set VF: operands from before any write, then the flag, then the result (R166 to R170, R173). For VF
named as `x` or `y` this order is the spec's own choice D7 (notes/assumptions/8.md). -/
def Obligations.ArithmeticWritesFlagThenResult : Prop :=
  ∀ (s : State) (x y : Nibble),
    InRow (.addReg x y) 0xF00F 0x8004 ∧
      WritesFlagged (.addReg x y) s x (if 255 < (s.getV x).toNat + (s.getV y).toNat then 1 else 0)
        (BitVec.ofNat 8 (((s.getV x).toNat + (s.getV y).toNat) % 256)) ∧
    InRow (.subReg x y) 0xF00F 0x8005 ∧
      WritesFlagged (.subReg x y) s x (if (s.getV x).toNat < (s.getV y).toNat then 0 else 1)
        (BitVec.ofNat 8 (((s.getV x).toNat + 256 - (s.getV y).toNat) % 256)) ∧
    InRow (.shr x y) 0xF00F 0x8006 ∧
      WritesFlagged (.shr x y) s x (BitVec.ofNat 8 ((s.getV x).toNat % 2)) (BitVec.ofNat 8 ((s.getV x).toNat / 2)) ∧
    InRow (.subnReg x y) 0xF00F 0x8007 ∧
      WritesFlagged (.subnReg x y) s x (if (s.getV y).toNat < (s.getV x).toNat then 0 else 1)
        (BitVec.ofNat 8 (((s.getV y).toNat + 256 - (s.getV x).toNat) % 256)) ∧
    InRow (.shl x y) 0xF00F 0x800E ∧
      WritesFlagged (.shl x y) s x (BitVec.ofNat 8 ((s.getV x).toNat / 128))
        (BitVec.ofNat 8 (2 * (s.getV x).toNat % 256))

/-- VF over all instructions: six write it as a flag, and then it is 0 or 1 unless VF is also the destination; every
other leaves it unless it names VF as its destination (R22). -/
def Obligations.FlagRegisterRule : Prop :=
  ∀ (i : Instr) (s t : State), exec i s = .next t → namesDestination 0xF i = false →
    (writesFlag i = true → t.getV 0xF = 0 ∨ t.getV 0xF = 1) ∧ (writesFlag i = false → t.getV 0xF = s.getV 0xF)

/-! ## Index register and memory instructions -/

/-- The three that set I (R190 to R192). -/
def Obligations.IndexInstructionsSetIndex : Prop :=
  ∀ (s : State) (x : Nibble) (nnn : Addr12),
    InRow (.ldI nnn) 0xF000 0xA000 ∧ SetsIndex (.ldI nnn) s nnn.toNat ∧
    InRow (.addI x) 0xF0FF 0xF01E ∧ SetsIndex (.addI x) s ((s.i.toNat + (s.getV x).toNat) % 65536) ∧
    InRow (.ldF x) 0xF0FF 0xF029 ∧ SetsIndex (.ldF x) s ((s.getV x).toNat * 5)

/-- `LD B, Vx` (R193): the digits at I, I+1, I+2, each address wrapping on its own, and nothing else. The wrapping is the
spec's own choice D5 (notes/assumptions/6.md), the canonical form of memory the model's (notes/assumptions/7.md). -/
def Obligations.StoreBcdWritesThreeDigits : Prop :=
  ∀ (s : State) (x : Nibble), InRow (.ldB x) 0xF0FF 0xF033 ∧
    (s.memWf → ∃ t, exec (.ldB x) s = .next t ∧ t.pc = s.pc + 2 ∧
      (t.memRead (s.effAddr 0)).toNat = (s.getV x).toNat / 100 ∧
      (t.memRead (s.effAddr 1)).toNat = (s.getV x).toNat / 10 % 10 ∧
      (t.memRead (s.effAddr 2)).toNat = (s.getV x).toNat % 10 ∧
      (∀ a : Word, (∀ k < 3, lineOf a ≠ lineOf (s.effAddr k)) → t.memRead a = s.memRead a) ∧
      SameRegs s t ∧ t.i = s.i ∧ SameStack s t ∧ SameDisplay s t ∧ SameTimers s t ∧ SameInterface s t)

/-- `LD [I], Vx` (R194): V0 to `V[x]` at I and upward, I moved past them, and nothing else. That each address wraps on
its own is the spec's own choice D5 (notes/assumptions/6.md), the canonical form of memory the model's
(notes/assumptions/7.md). -/
def Obligations.StoreRegistersWritesRun : Prop :=
  ∀ (s : State) (x : Nibble), InRow (.ldMemVx x) 0xF0FF 0xF055 ∧
    (s.memWf → ∃ t, exec (.ldMemVx x) s = .next t ∧ t.pc = s.pc + 2 ∧
      (∀ k : Nibble, k ≤ x → t.memRead (s.effAddr k.toNat) = s.getV k) ∧
      (∀ a : Word, (∀ k : Nibble, k ≤ x → lineOf a ≠ lineOf (s.effAddr k.toNat)) → t.memRead a = s.memRead a) ∧
      t.i.toNat = (s.i.toNat + x.toNat + 1) % 65536 ∧
      SameRegs s t ∧ SameStack s t ∧ SameDisplay s t ∧ SameTimers s t ∧ SameInterface s t)

/-- `LD Vx, [I]` (R195): V0 to `V[x]` from I and upward, I moved past them, and nothing else. -/
def Obligations.LoadRegistersReadsRun : Prop :=
  ∀ (s : State) (x : Nibble), InRow (.ldVxMem x) 0xF0FF 0xF065 ∧
    ∃ t, exec (.ldVxMem x) s = .next t ∧ t.pc = s.pc + 2 ∧
      (∀ k : Nibble, k ≤ x → t.getV k = s.memRead (s.effAddr k.toNat)) ∧
      (∀ k : Nibble, x < k → t.getV k = s.getV k) ∧
      t.i.toNat = (s.i.toNat + x.toNat + 1) % 65536 ∧ SameOutside s t

/-- Registers stored and then loaded again from the same place come back, whatever the registers hold in between (R298:
the program sets I again). -/
def Obligations.StoreThenLoadRestoresRegisters : Prop :=
  ∀ (s t : State) (x : Nibble) (w : Vector Byte 16), s.memWf → exec (.ldMemVx x) s = .next t →
    ∃ u, exec (.ldVxMem x) { t with v := w, i := s.i } = .next u ∧ (∀ k : Nibble, k ≤ x → u.getV k = s.getV k) ∧
      u.i = t.i

/-! ## Display -/

/-- `CLS` (R210). That `redraw` is set from every state, a blank display among them, is the spec's own choice D17
(notes/assumptions/15.md). -/
def Obligations.ClearScreenBlanksDisplay : Prop :=
  ∀ s : State, encodeWord .cls = 0x00E0 ∧ ∃ t, exec .cls s = .next t ∧ t.pc = s.pc + 2 ∧
    (∀ yy xx, t.disp.get yy xx = false) ∧ t.redraw = true ∧ SameRegs s t ∧ t.i = s.i ∧ SameMemory s t ∧
    SameStack s t ∧ SameTimers s t ∧ SameInterface s t

/-- `DRW Vx, Vy, n` (R211, R212, R213): every cell XOR the sprite bit that lands on it, with wrapping per pixel; VF the
collision with the cells from before; `redraw` always. Coordinates read before VF is cleared, 8 columns and 32 rows, the
corner at the left and top, and the unconditional redraw are the spec's own choices D7, D8, D19, D17
(notes/assumptions/8.md, 11.md, 14.md, 15.md). -/
def Obligations.DrawXorsSpriteAndReportsCollision : Prop :=
  ∀ (s : State) (x y n : Nibble), InRow (.drw x y n) 0xF000 0xD000 ∧
    ∃ t, exec (.drw x y n) s = .next t ∧ t.pc = s.pc + 2 ∧
      (∀ yy xx, t.disp.get yy xx = (s.disp.get yy xx ^^ s.spriteBit (s.getV x) (s.getV y) n.toNat yy xx)) ∧
      ((∃ yy xx, s.spriteBit (s.getV x) (s.getV y) n.toNat yy xx = true ∧ s.disp.get yy xx = true) →
        t.getV 0xF = 1) ∧
      ((∀ yy xx, s.spriteBit (s.getV x) (s.getV y) n.toNat yy xx = true → s.disp.get yy xx = false) →
        t.getV 0xF = 0) ∧
      t.redraw = true ∧ (∀ r, r ≠ 0xF → t.getV r = s.getV r) ∧ t.i = s.i ∧ SameMemory s t ∧ SameStack s t ∧
      SameTimers s t ∧ SameInterface s t

/-- The same sprite drawn twice at the same place restores the display, and the second draw reports a collision exactly
when some set bit landed on a cell that was 0 at first. With VF as a coordinate the place moves, so it is left out here;
the single draw is stated for it above. -/
def Obligations.DrawTwiceRestoresDisplay : Prop :=
  ∀ (s : State) (x y n : Nibble), x ≠ 0xF → y ≠ 0xF →
    ∃ t u, exec (.drw x y n) s = .next t ∧ exec (.drw x y n) t = .next u ∧
      (∀ yy xx, u.disp.get yy xx = s.disp.get yy xx) ∧
      (u.getV 0xF = 1 ↔
        ∃ yy xx, s.spriteBit (s.getV x) (s.getV y) n.toNat yy xx = true ∧ s.disp.get yy xx = false)

/-! ## Keypad and timers -/

/-- `LD Vx, K` (R233): with no key down only `waiting_for_key` changes; else `V[x]` is the lowest key that is down. The
lowest is the spec's own choice D9 (notes/assumptions/10.md). -/
def Obligations.WaitForKeyTakesLowestKey : Prop :=
  ∀ (s : State) (x : Nibble), InRow (.ldVxK x) 0xF0FF 0xF00A ∧
    (s.input.key = 0 → ∃ t, exec (.ldVxK x) s = .next t ∧ t = { s with out := { s.out with waitingForKey := true } }) ∧
    (s.input.key ≠ 0 → ∃ k : Nibble, s.input.key.getLsbD k.toNat = true ∧
      (∀ j : Nibble, j < k → s.input.key.getLsbD j.toNat = false) ∧
      WritesRegister (.ldVxK x) s x (BitVec.ofNat 8 k.toNat))

/-- The three timer instructions, before the tick of their cycle (R232, R234, R235). -/
def Obligations.TimerInstructionsMoveTimers : Prop :=
  ∀ (s : State) (x : Nibble),
    InRow (.ldVxDT x) 0xF0FF 0xF007 ∧ WritesRegister (.ldVxDT x) s x s.dt ∧
    InRow (.ldDTVx x) 0xF0FF 0xF015 ∧
      (∃ t, exec (.ldDTVx x) s = .next t ∧ t.pc = s.pc + 2 ∧ t.dt = s.getV x ∧ t.st = s.st ∧ SameRegs s t ∧
        t.i = s.i ∧ SameMemory s t ∧ SameStack s t ∧ SameDisplay s t ∧ SameInterface s t) ∧
    InRow (.ldSTVx x) 0xF0FF 0xF018 ∧
      (∃ t, exec (.ldSTVx x) s = .next t ∧ t.pc = s.pc + 2 ∧ t.st = s.getV x ∧ t.dt = s.dt ∧ SameRegs s t ∧
        t.i = s.i ∧ SameMemory s t ∧ SameStack s t ∧ SameDisplay s t ∧ SameInterface s t)

/-! ## Over all instructions -/

/-- Only the instructions that R20 and R21 name write an element of the state; the stack entries apart from the stack
pointer, since a return leaves the entries (R26). -/
def Obligations.OnlyNamedInstructionsWrite : Prop :=
  ∀ (i : Instr) (s t : State), exec i s = .next t →
    (writesMemory i = false → SameMemory s t) ∧ (writesIndex i = false → t.i = s.i) ∧
    (writesStackPointer i = false → t.sp = s.sp) ∧
    (writesStackEntries i = false → ∀ k : Fin 16, t.stack[k] = s.stack[k]) ∧ (writesDisplay i = false → SameDisplay s t) ∧
    (writesDelayTimer i = false → t.dt = s.dt) ∧ (writesSoundTimer i = false → t.st = s.st) ∧
    (∀ r, namesDestination r i = false → t.getV r = s.getV r ∨ (r = 0xF ∧ writesFlag i = true))

/-- The keypad is read by three instructions only and the random byte by one (R32, R33). -/
def Obligations.InputsReachOnlyTheirReaders : Prop :=
  ∀ (i : Instr) (s : State) (p q : CycleInput), (readsKeypad i = true → p.key = q.key) →
    (readsRandom i = true → p.rand = q.rand) →
    SameOutcome DifferInHost (exec i (s.supply p)) (exec i (s.supply q))

/-- Two states that differ only in bits 15 to 12 of I behave alike in every cycle (R23). -/
def Obligations.HighIndexBitsNeverShow : Prop :=
  ∀ s t : State, DifferInHighIndex s t → SameOutcome DifferInHighIndex (step s) (step t)

/-- A stack entry at `sp` or above is never read (R26). -/
def Obligations.StaleStackEntriesNeverShow : Prop :=
  ∀ s t : State, DifferInStaleStack s t → SameOutcome DifferInStaleStack (step s) (step t)

/-- No instruction reads ST, the redraw flag or the output pins (R30, R31, R37). -/
def Obligations.SoundTimerAndRedrawNeverShow : Prop :=
  ∀ s t : State, DifferInUnreadable s t → SameOutcome DifferInUnreadable (step s) (step t)

/-- The parameter `FONT` is fixed for a machine: no step, no cycle and no move of the host changes it, and each Reset puts
its bytes back (R5, R290, R292). That State holds it is the model's way to have a parameter (notes/assumptions/4.md). -/
def Obligations.FontIsFixedAndResetRestoresIt : Prop :=
  ∀ s : State, (∀ u, step s = .next u → u.font = s.font) ∧ (∀ u, cycle s = .next u → u.font = s.font) ∧
    (∀ m u, hostMove m s = .next u → u.font = s.font) ∧
    ∀ u, hostMove .reset s = .next u → ∀ (a : Word) (h : a.toNat < 80), u.memRead a = s.font[a.toNat]

/-- `FONT` shows only through the bytes of memory: two machines with different fonts, whose memories read alike and which
agree on everything else, behave alike in every step (R292: no rule depends on the byte values). The canonical form of
memory is the model's (notes/assumptions/7.md). -/
def Obligations.FontShowsOnlyThroughMemory : Prop :=
  ∀ s t : State, s.memWf → t.memWf → DifferInFont s t → SameOutcome DifferInFont (step s) (step t)
end

