-- ==== Sys2Proof/Laws/Decode.lean ====
section
/-!
SUPPORT. The decoder and the encoder: what each field of an encoded word is, and what a word is made of.
-/

namespace Sys2Proof

/-! ### A field as a number -/

theorem fieldFam_toNat (w : Word) : (fieldFam w).toNat = w.toNat / 4096 := by
  have := w.isLt
  simp only [fieldFam, BitVec.extractLsb'_toNat, Nat.shiftRight_eq_div_pow]
  omega

theorem fieldX_toNat (w : Word) : (fieldX w).toNat = w.toNat / 256 % 16 := by
  simp [fieldX, BitVec.extractLsb'_toNat, Nat.shiftRight_eq_div_pow]

theorem fieldY_toNat (w : Word) : (fieldY w).toNat = w.toNat / 16 % 16 := by
  simp [fieldY, BitVec.extractLsb'_toNat, Nat.shiftRight_eq_div_pow]

theorem fieldN_toNat (w : Word) : (fieldN w).toNat = w.toNat % 16 := by
  simp [fieldN, BitVec.extractLsb'_toNat]

theorem fieldNN_toNat (w : Word) : (fieldNN w).toNat = w.toNat % 256 := by
  simp [fieldNN, BitVec.extractLsb'_toNat]

theorem fieldNNN_toNat (w : Word) : (fieldNNN w).toNat = w.toNat % 4096 := by
  simp [fieldNNN, BitVec.extractLsb'_toNat]

/-! ### An encoded word as a number -/

theorem wordA_toNat (fam : Nibble) (nnn : Addr12) : (wordA fam nnn).toNat = fam.toNat * 4096 + nnn.toNat := by
  have := fam.isLt
  have := nnn.isLt
  rw [wordA, BitVec.toNat_ofNat]
  omega

theorem wordXI_toNat (fam x : Nibble) (nn : Byte) :
    (wordXI fam x nn).toNat = fam.toNat * 4096 + x.toNat * 256 + nn.toNat := by
  have := fam.isLt
  have := x.isLt
  have := nn.isLt
  rw [wordXI, BitVec.toNat_ofNat]
  omega

theorem wordXYN_toNat (fam x y n : Nibble) :
    (wordXYN fam x y n).toNat = fam.toNat * 4096 + x.toNat * 256 + y.toNat * 16 + n.toNat := by
  have := fam.isLt
  have := x.isLt
  have := y.isLt
  have := n.isLt
  rw [wordXYN, BitVec.toNat_ofNat]
  omega

/-! ### The fields of an encoded word -/

@[simp] theorem fieldFam_wordA (fam : Nibble) (nnn : Addr12) : fieldFam (wordA fam nnn) = fam := by
  apply BitVec.eq_of_toNat_eq
  have := nnn.isLt
  rw [fieldFam_toNat, wordA_toNat]
  omega

@[simp] theorem fieldNNN_wordA (fam : Nibble) (nnn : Addr12) : fieldNNN (wordA fam nnn) = nnn := by
  apply BitVec.eq_of_toNat_eq
  have := nnn.isLt
  rw [fieldNNN_toNat, wordA_toNat]
  omega

@[simp] theorem fieldFam_wordXI (fam x : Nibble) (nn : Byte) : fieldFam (wordXI fam x nn) = fam := by
  apply BitVec.eq_of_toNat_eq
  have := x.isLt
  have := nn.isLt
  rw [fieldFam_toNat, wordXI_toNat]
  omega

@[simp] theorem fieldX_wordXI (fam x : Nibble) (nn : Byte) : fieldX (wordXI fam x nn) = x := by
  apply BitVec.eq_of_toNat_eq
  have := x.isLt
  have := nn.isLt
  rw [fieldX_toNat, wordXI_toNat]
  omega

@[simp] theorem fieldNN_wordXI (fam x : Nibble) (nn : Byte) : fieldNN (wordXI fam x nn) = nn := by
  apply BitVec.eq_of_toNat_eq
  have := nn.isLt
  rw [fieldNN_toNat, wordXI_toNat]
  omega

@[simp] theorem fieldFam_wordXYN (fam x y n : Nibble) : fieldFam (wordXYN fam x y n) = fam := by
  apply BitVec.eq_of_toNat_eq
  have := x.isLt
  have := y.isLt
  have := n.isLt
  rw [fieldFam_toNat, wordXYN_toNat]
  omega

@[simp] theorem fieldX_wordXYN (fam x y n : Nibble) : fieldX (wordXYN fam x y n) = x := by
  apply BitVec.eq_of_toNat_eq
  have := x.isLt
  have := y.isLt
  have := n.isLt
  rw [fieldX_toNat, wordXYN_toNat]
  omega

@[simp] theorem fieldY_wordXYN (fam x y n : Nibble) : fieldY (wordXYN fam x y n) = y := by
  apply BitVec.eq_of_toNat_eq
  have := y.isLt
  have := n.isLt
  rw [fieldY_toNat, wordXYN_toNat]
  omega

@[simp] theorem fieldN_wordXYN (fam x y n : Nibble) : fieldN (wordXYN fam x y n) = n := by
  apply BitVec.eq_of_toNat_eq
  have := n.isLt
  rw [fieldN_toNat, wordXYN_toNat]
  omega

/-! ### A word from its fields -/

theorem wordA_fields (w : Word) : wordA (fieldFam w) (fieldNNN w) = w := by
  apply BitVec.eq_of_toNat_eq
  rw [wordA_toNat, fieldFam_toNat, fieldNNN_toNat]
  omega

theorem wordXI_fields (w : Word) : wordXI (fieldFam w) (fieldX w) (fieldNN w) = w := by
  apply BitVec.eq_of_toNat_eq
  rw [wordXI_toNat, fieldFam_toNat, fieldX_toNat, fieldNN_toNat]
  omega

theorem wordXYN_fields (w : Word) : wordXYN (fieldFam w) (fieldX w) (fieldY w) (fieldN w) = w := by
  apply BitVec.eq_of_toNat_eq
  rw [wordXYN_toNat, fieldFam_toNat, fieldX_toNat, fieldY_toNat, fieldN_toNat]
  omega

/-! ### Masks: fixed bits of a word -/

/-- Two words with the same nibbles are the same. -/
theorem word_eq_iff (a b : Word) :
    a = b ↔ fieldFam a = fieldFam b ∧ fieldX a = fieldX b ∧ fieldY a = fieldY b ∧ fieldN a = fieldN b := by
  constructor
  · rintro rfl
    simp
  · rintro ⟨h1, h2, h3, h4⟩
    rw [← wordXYN_fields a, h1, h2, h3, h4, wordXYN_fields]

theorem fieldFam_and (a b : Word) : fieldFam (a &&& b) = fieldFam a &&& fieldFam b := by
  simp [fieldFam, BitVec.extractLsb'_and]

theorem fieldX_and (a b : Word) : fieldX (a &&& b) = fieldX a &&& fieldX b := by
  simp [fieldX, BitVec.extractLsb'_and]

theorem fieldY_and (a b : Word) : fieldY (a &&& b) = fieldY a &&& fieldY b := by
  simp [fieldY, BitVec.extractLsb'_and]

theorem fieldN_and (a b : Word) : fieldN (a &&& b) = fieldN a &&& fieldN b := by
  simp [fieldN, BitVec.extractLsb'_and]

theorem nibble_and_zero (a : Nibble) : a &&& 0 = 0 := by decide +revert

theorem nibble_and_ones (a : Nibble) : a &&& 0xF = a := by decide +revert

/-- A word under the mask F000 is its family nibble. -/
theorem and_F000 (w p : Word) (hx : fieldX p = 0) (hy : fieldY p = 0) (hn : fieldN p = 0) :
    w &&& 0xF000 = p ↔ fieldFam w = fieldFam p := by
  rw [word_eq_iff, fieldFam_and, fieldX_and, fieldY_and, fieldN_and, hx, hy, hn,
    show fieldFam 0xF000 = 0xF from rfl, show fieldX 0xF000 = 0 from rfl, show fieldY 0xF000 = 0 from rfl,
    show fieldN 0xF000 = 0 from rfl, nibble_and_ones]
  simp

/-- A word under the mask F00F is its family nibble and its low nibble. -/
theorem and_F00F (w p : Word) (hx : fieldX p = 0) (hy : fieldY p = 0) :
    w &&& 0xF00F = p ↔ fieldFam w = fieldFam p ∧ fieldN w = fieldN p := by
  rw [word_eq_iff, fieldFam_and, fieldX_and, fieldY_and, fieldN_and, hx, hy,
    show fieldFam 0xF00F = 0xF from rfl, show fieldX 0xF00F = 0 from rfl, show fieldY 0xF00F = 0 from rfl,
    show fieldN 0xF00F = 0xF from rfl, nibble_and_ones, nibble_and_ones]
  simp

/-- The low byte is its two nibbles. -/
theorem fieldNN_eq_iff (a b : Word) : fieldNN a = fieldNN b ↔ fieldY a = fieldY b ∧ fieldN a = fieldN b := by
  simp only [← BitVec.toNat_inj, fieldNN_toNat, fieldY_toNat, fieldN_toNat]
  omega

/-- A word under the mask F0FF is its family nibble and its low byte. -/
theorem and_F0FF (w p : Word) (hx : fieldX p = 0) :
    w &&& 0xF0FF = p ↔ fieldFam w = fieldFam p ∧ fieldNN w = fieldNN p := by
  rw [word_eq_iff, fieldFam_and, fieldX_and, fieldY_and, fieldN_and, hx, fieldNN_eq_iff,
    show fieldFam 0xF0FF = 0xF from rfl, show fieldX 0xF0FF = 0 from rfl, show fieldY 0xF0FF = 0xF from rfl,
    show fieldN 0xF0FF = 0xF from rfl, nibble_and_ones, nibble_and_ones, nibble_and_ones]
  simp

end Sys2Proof
end

