-- ==== Sys2Proof/Laws/State.lean ====
section
/-!
SUPPORT. One lemma per field of State per update: what each named operation leaves in each field.
-/

namespace Sys2Proof.Machine

/-! ### State.memWrite -/

@[simp] theorem State.memWrite_mem (s : State) (a : Word) (b : Byte) :
    (s.memWrite a b).mem = s.mem.write s.font (lineOf a) b := rfl
@[simp] theorem State.memWrite_v (s : State) (a : Word) (b : Byte) : (s.memWrite a b).v = s.v := rfl
@[simp] theorem State.memWrite_i (s : State) (a : Word) (b : Byte) : (s.memWrite a b).i = s.i := rfl
@[simp] theorem State.memWrite_pc (s : State) (a : Word) (b : Byte) : (s.memWrite a b).pc = s.pc := rfl
@[simp] theorem State.memWrite_sp (s : State) (a : Word) (b : Byte) : (s.memWrite a b).sp = s.sp := rfl
@[simp] theorem State.memWrite_stack (s : State) (a : Word) (b : Byte) : (s.memWrite a b).stack = s.stack := rfl
@[simp] theorem State.memWrite_disp (s : State) (a : Word) (b : Byte) : (s.memWrite a b).disp = s.disp := rfl
@[simp] theorem State.memWrite_dt (s : State) (a : Word) (b : Byte) : (s.memWrite a b).dt = s.dt := rfl
@[simp] theorem State.memWrite_st (s : State) (a : Word) (b : Byte) : (s.memWrite a b).st = s.st := rfl
@[simp] theorem State.memWrite_redraw (s : State) (a : Word) (b : Byte) : (s.memWrite a b).redraw = s.redraw := rfl
@[simp] theorem State.memWrite_font (s : State) (a : Word) (b : Byte) : (s.memWrite a b).font = s.font := rfl
@[simp] theorem State.memWrite_out (s : State) (a : Word) (b : Byte) : (s.memWrite a b).out = s.out := rfl
@[simp] theorem State.memWrite_env (s : State) (a : Word) (b : Byte) : (s.memWrite a b).env = s.env := rfl

/-! ### State.setV -/

@[simp] theorem State.setV_mem (s : State) (x : Nibble) (b : Byte) : (s.setV x b).mem = s.mem := rfl
@[simp] theorem State.setV_v (s : State) (x : Nibble) (b : Byte) : (s.setV x b).v = s.v.set x.toNat b x.isLt := rfl
@[simp] theorem State.setV_i (s : State) (x : Nibble) (b : Byte) : (s.setV x b).i = s.i := rfl
@[simp] theorem State.setV_pc (s : State) (x : Nibble) (b : Byte) : (s.setV x b).pc = s.pc := rfl
@[simp] theorem State.setV_sp (s : State) (x : Nibble) (b : Byte) : (s.setV x b).sp = s.sp := rfl
@[simp] theorem State.setV_stack (s : State) (x : Nibble) (b : Byte) : (s.setV x b).stack = s.stack := rfl
@[simp] theorem State.setV_disp (s : State) (x : Nibble) (b : Byte) : (s.setV x b).disp = s.disp := rfl
@[simp] theorem State.setV_dt (s : State) (x : Nibble) (b : Byte) : (s.setV x b).dt = s.dt := rfl
@[simp] theorem State.setV_st (s : State) (x : Nibble) (b : Byte) : (s.setV x b).st = s.st := rfl
@[simp] theorem State.setV_redraw (s : State) (x : Nibble) (b : Byte) : (s.setV x b).redraw = s.redraw := rfl
@[simp] theorem State.setV_font (s : State) (x : Nibble) (b : Byte) : (s.setV x b).font = s.font := rfl
@[simp] theorem State.setV_out (s : State) (x : Nibble) (b : Byte) : (s.setV x b).out = s.out := rfl
@[simp] theorem State.setV_env (s : State) (x : Nibble) (b : Byte) : (s.setV x b).env = s.env := rfl

/-! ### State.setFlagged -/

@[simp] theorem State.setFlagged_mem (s : State) (x : Nibble) (f r : Byte) : (s.setFlagged x f r).mem = s.mem := rfl
@[simp] theorem State.setFlagged_i (s : State) (x : Nibble) (f r : Byte) : (s.setFlagged x f r).i = s.i := rfl
@[simp] theorem State.setFlagged_pc (s : State) (x : Nibble) (f r : Byte) : (s.setFlagged x f r).pc = s.pc := rfl
@[simp] theorem State.setFlagged_sp (s : State) (x : Nibble) (f r : Byte) : (s.setFlagged x f r).sp = s.sp := rfl
@[simp] theorem State.setFlagged_stack (s : State) (x : Nibble) (f r : Byte) :
    (s.setFlagged x f r).stack = s.stack := rfl
@[simp] theorem State.setFlagged_disp (s : State) (x : Nibble) (f r : Byte) :
    (s.setFlagged x f r).disp = s.disp := rfl
@[simp] theorem State.setFlagged_dt (s : State) (x : Nibble) (f r : Byte) : (s.setFlagged x f r).dt = s.dt := rfl
@[simp] theorem State.setFlagged_st (s : State) (x : Nibble) (f r : Byte) : (s.setFlagged x f r).st = s.st := rfl
@[simp] theorem State.setFlagged_redraw (s : State) (x : Nibble) (f r : Byte) :
    (s.setFlagged x f r).redraw = s.redraw := rfl
@[simp] theorem State.setFlagged_font (s : State) (x : Nibble) (f r : Byte) :
    (s.setFlagged x f r).font = s.font := rfl
@[simp] theorem State.setFlagged_out (s : State) (x : Nibble) (f r : Byte) : (s.setFlagged x f r).out = s.out := rfl
@[simp] theorem State.setFlagged_env (s : State) (x : Nibble) (f r : Byte) : (s.setFlagged x f r).env = s.env := rfl

/-! ### State.advance -/

@[simp] theorem State.advance_mem (s : State) : (s.advance).mem = s.mem := rfl
@[simp] theorem State.advance_v (s : State) : (s.advance).v = s.v := rfl
@[simp] theorem State.advance_i (s : State) : (s.advance).i = s.i := rfl
@[simp] theorem State.advance_pc (s : State) : (s.advance).pc = s.pc + 2 := rfl
@[simp] theorem State.advance_sp (s : State) : (s.advance).sp = s.sp := rfl
@[simp] theorem State.advance_stack (s : State) : (s.advance).stack = s.stack := rfl
@[simp] theorem State.advance_disp (s : State) : (s.advance).disp = s.disp := rfl
@[simp] theorem State.advance_dt (s : State) : (s.advance).dt = s.dt := rfl
@[simp] theorem State.advance_st (s : State) : (s.advance).st = s.st := rfl
@[simp] theorem State.advance_redraw (s : State) : (s.advance).redraw = s.redraw := rfl
@[simp] theorem State.advance_font (s : State) : (s.advance).font = s.font := rfl
@[simp] theorem State.advance_out (s : State) : (s.advance).out = s.out := rfl
@[simp] theorem State.advance_env (s : State) : (s.advance).env = s.env := rfl

/-! ### State.skip -/

@[simp] theorem State.skip_mem (s : State) : (s.skip).mem = s.mem := rfl
@[simp] theorem State.skip_v (s : State) : (s.skip).v = s.v := rfl
@[simp] theorem State.skip_i (s : State) : (s.skip).i = s.i := rfl
@[simp] theorem State.skip_pc (s : State) : (s.skip).pc = s.pc + 4 := rfl
@[simp] theorem State.skip_sp (s : State) : (s.skip).sp = s.sp := rfl
@[simp] theorem State.skip_stack (s : State) : (s.skip).stack = s.stack := rfl
@[simp] theorem State.skip_disp (s : State) : (s.skip).disp = s.disp := rfl
@[simp] theorem State.skip_dt (s : State) : (s.skip).dt = s.dt := rfl
@[simp] theorem State.skip_st (s : State) : (s.skip).st = s.st := rfl
@[simp] theorem State.skip_redraw (s : State) : (s.skip).redraw = s.redraw := rfl
@[simp] theorem State.skip_font (s : State) : (s.skip).font = s.font := rfl
@[simp] theorem State.skip_out (s : State) : (s.skip).out = s.out := rfl
@[simp] theorem State.skip_env (s : State) : (s.skip).env = s.env := rfl

/-! ### State.skipIf -/

@[simp] theorem State.skipIf_mem (s : State) (c : Bool) : (s.skipIf c).mem = s.mem := by cases c <;> rfl
@[simp] theorem State.skipIf_v (s : State) (c : Bool) : (s.skipIf c).v = s.v := by cases c <;> rfl
@[simp] theorem State.skipIf_i (s : State) (c : Bool) : (s.skipIf c).i = s.i := by cases c <;> rfl
@[simp] theorem State.skipIf_pc (s : State) (c : Bool) :
    (s.skipIf c).pc = if c then s.pc + 4 else s.pc + 2 := by cases c <;> rfl
@[simp] theorem State.skipIf_sp (s : State) (c : Bool) : (s.skipIf c).sp = s.sp := by cases c <;> rfl
@[simp] theorem State.skipIf_stack (s : State) (c : Bool) : (s.skipIf c).stack = s.stack := by cases c <;> rfl
@[simp] theorem State.skipIf_disp (s : State) (c : Bool) : (s.skipIf c).disp = s.disp := by cases c <;> rfl
@[simp] theorem State.skipIf_dt (s : State) (c : Bool) : (s.skipIf c).dt = s.dt := by cases c <;> rfl
@[simp] theorem State.skipIf_st (s : State) (c : Bool) : (s.skipIf c).st = s.st := by cases c <;> rfl
@[simp] theorem State.skipIf_redraw (s : State) (c : Bool) : (s.skipIf c).redraw = s.redraw := by cases c <;> rfl
@[simp] theorem State.skipIf_font (s : State) (c : Bool) : (s.skipIf c).font = s.font := by cases c <;> rfl
@[simp] theorem State.skipIf_out (s : State) (c : Bool) : (s.skipIf c).out = s.out := by cases c <;> rfl
@[simp] theorem State.skipIf_env (s : State) (c : Bool) : (s.skipIf c).env = s.env := by cases c <;> rfl

/-! ### State.jump -/

@[simp] theorem State.jump_mem (s : State) (a : Word) : (s.jump a).mem = s.mem := rfl
@[simp] theorem State.jump_v (s : State) (a : Word) : (s.jump a).v = s.v := rfl
@[simp] theorem State.jump_i (s : State) (a : Word) : (s.jump a).i = s.i := rfl
@[simp] theorem State.jump_pc (s : State) (a : Word) : (s.jump a).pc = a := rfl
@[simp] theorem State.jump_sp (s : State) (a : Word) : (s.jump a).sp = s.sp := rfl
@[simp] theorem State.jump_stack (s : State) (a : Word) : (s.jump a).stack = s.stack := rfl
@[simp] theorem State.jump_disp (s : State) (a : Word) : (s.jump a).disp = s.disp := rfl
@[simp] theorem State.jump_dt (s : State) (a : Word) : (s.jump a).dt = s.dt := rfl
@[simp] theorem State.jump_st (s : State) (a : Word) : (s.jump a).st = s.st := rfl
@[simp] theorem State.jump_redraw (s : State) (a : Word) : (s.jump a).redraw = s.redraw := rfl
@[simp] theorem State.jump_font (s : State) (a : Word) : (s.jump a).font = s.font := rfl
@[simp] theorem State.jump_out (s : State) (a : Word) : (s.jump a).out = s.out := rfl
@[simp] theorem State.jump_env (s : State) (a : Word) : (s.jump a).env = s.env := rfl

/-! ### State.setI -/

@[simp] theorem State.setI_mem (s : State) (a : Word) : (s.setI a).mem = s.mem := rfl
@[simp] theorem State.setI_v (s : State) (a : Word) : (s.setI a).v = s.v := rfl
@[simp] theorem State.setI_i (s : State) (a : Word) : (s.setI a).i = a := rfl
@[simp] theorem State.setI_pc (s : State) (a : Word) : (s.setI a).pc = s.pc := rfl
@[simp] theorem State.setI_sp (s : State) (a : Word) : (s.setI a).sp = s.sp := rfl
@[simp] theorem State.setI_stack (s : State) (a : Word) : (s.setI a).stack = s.stack := rfl
@[simp] theorem State.setI_disp (s : State) (a : Word) : (s.setI a).disp = s.disp := rfl
@[simp] theorem State.setI_dt (s : State) (a : Word) : (s.setI a).dt = s.dt := rfl
@[simp] theorem State.setI_st (s : State) (a : Word) : (s.setI a).st = s.st := rfl
@[simp] theorem State.setI_redraw (s : State) (a : Word) : (s.setI a).redraw = s.redraw := rfl
@[simp] theorem State.setI_font (s : State) (a : Word) : (s.setI a).font = s.font := rfl
@[simp] theorem State.setI_out (s : State) (a : Word) : (s.setI a).out = s.out := rfl
@[simp] theorem State.setI_env (s : State) (a : Word) : (s.setI a).env = s.env := rfl

/-! ### State.reportFault -/

@[simp] theorem State.reportFault_mem (s : State) (f : Fault) : (s.reportFault f).mem = s.mem := rfl
@[simp] theorem State.reportFault_v (s : State) (f : Fault) : (s.reportFault f).v = s.v := rfl
@[simp] theorem State.reportFault_i (s : State) (f : Fault) : (s.reportFault f).i = s.i := rfl
@[simp] theorem State.reportFault_pc (s : State) (f : Fault) : (s.reportFault f).pc = s.pc := rfl
@[simp] theorem State.reportFault_sp (s : State) (f : Fault) : (s.reportFault f).sp = s.sp := rfl
@[simp] theorem State.reportFault_stack (s : State) (f : Fault) : (s.reportFault f).stack = s.stack := rfl
@[simp] theorem State.reportFault_disp (s : State) (f : Fault) : (s.reportFault f).disp = s.disp := rfl
@[simp] theorem State.reportFault_dt (s : State) (f : Fault) : (s.reportFault f).dt = s.dt := rfl
@[simp] theorem State.reportFault_st (s : State) (f : Fault) : (s.reportFault f).st = s.st := rfl
@[simp] theorem State.reportFault_redraw (s : State) (f : Fault) : (s.reportFault f).redraw = s.redraw := rfl
@[simp] theorem State.reportFault_font (s : State) (f : Fault) : (s.reportFault f).font = s.font := rfl
@[simp] theorem State.reportFault_out (s : State) (f : Fault) :
    (s.reportFault f).out = { s.out with fault := some f } := rfl
@[simp] theorem State.reportFault_env (s : State) (f : Fault) : (s.reportFault f).env = s.env := rfl

/-! ### State.waitForKey -/

@[simp] theorem State.waitForKey_mem (s : State) : (s.waitForKey).mem = s.mem := rfl
@[simp] theorem State.waitForKey_v (s : State) : (s.waitForKey).v = s.v := rfl
@[simp] theorem State.waitForKey_i (s : State) : (s.waitForKey).i = s.i := rfl
@[simp] theorem State.waitForKey_pc (s : State) : (s.waitForKey).pc = s.pc := rfl
@[simp] theorem State.waitForKey_sp (s : State) : (s.waitForKey).sp = s.sp := rfl
@[simp] theorem State.waitForKey_stack (s : State) : (s.waitForKey).stack = s.stack := rfl
@[simp] theorem State.waitForKey_disp (s : State) : (s.waitForKey).disp = s.disp := rfl
@[simp] theorem State.waitForKey_dt (s : State) : (s.waitForKey).dt = s.dt := rfl
@[simp] theorem State.waitForKey_st (s : State) : (s.waitForKey).st = s.st := rfl
@[simp] theorem State.waitForKey_redraw (s : State) : (s.waitForKey).redraw = s.redraw := rfl
@[simp] theorem State.waitForKey_font (s : State) : (s.waitForKey).font = s.font := rfl
@[simp] theorem State.waitForKey_out (s : State) : (s.waitForKey).out = { s.out with waitingForKey := true } := rfl
@[simp] theorem State.waitForKey_env (s : State) : (s.waitForKey).env = s.env := rfl

/-! ### State.beginCycle -/

@[simp] theorem State.beginCycle_mem (s : State) : (s.beginCycle).mem = s.mem := rfl
@[simp] theorem State.beginCycle_v (s : State) : (s.beginCycle).v = s.v := rfl
@[simp] theorem State.beginCycle_i (s : State) : (s.beginCycle).i = s.i := rfl
@[simp] theorem State.beginCycle_pc (s : State) : (s.beginCycle).pc = s.pc := rfl
@[simp] theorem State.beginCycle_sp (s : State) : (s.beginCycle).sp = s.sp := rfl
@[simp] theorem State.beginCycle_stack (s : State) : (s.beginCycle).stack = s.stack := rfl
@[simp] theorem State.beginCycle_disp (s : State) : (s.beginCycle).disp = s.disp := rfl
@[simp] theorem State.beginCycle_dt (s : State) : (s.beginCycle).dt = s.dt := rfl
@[simp] theorem State.beginCycle_st (s : State) : (s.beginCycle).st = s.st := rfl
@[simp] theorem State.beginCycle_redraw (s : State) : (s.beginCycle).redraw = s.redraw := rfl
@[simp] theorem State.beginCycle_font (s : State) : (s.beginCycle).font = s.font := rfl
@[simp] theorem State.beginCycle_out (s : State) : (s.beginCycle).out = Outputs.clear := rfl
@[simp] theorem State.beginCycle_env (s : State) : (s.beginCycle).env = s.env := rfl

/-! ### State.timerUpdate -/

@[simp] theorem State.timerUpdate_mem (s : State) (k : Bool) : (s.timerUpdate k).mem = s.mem := rfl
@[simp] theorem State.timerUpdate_v (s : State) (k : Bool) : (s.timerUpdate k).v = s.v := rfl
@[simp] theorem State.timerUpdate_i (s : State) (k : Bool) : (s.timerUpdate k).i = s.i := rfl
@[simp] theorem State.timerUpdate_pc (s : State) (k : Bool) : (s.timerUpdate k).pc = s.pc := rfl
@[simp] theorem State.timerUpdate_sp (s : State) (k : Bool) : (s.timerUpdate k).sp = s.sp := rfl
@[simp] theorem State.timerUpdate_stack (s : State) (k : Bool) : (s.timerUpdate k).stack = s.stack := rfl
@[simp] theorem State.timerUpdate_disp (s : State) (k : Bool) : (s.timerUpdate k).disp = s.disp := rfl
@[simp] theorem State.timerUpdate_dt (s : State) (k : Bool) : (s.timerUpdate k).dt = tickDown k s.dt := rfl
@[simp] theorem State.timerUpdate_st (s : State) (k : Bool) : (s.timerUpdate k).st = tickDown k s.st := rfl
@[simp] theorem State.timerUpdate_redraw (s : State) (k : Bool) : (s.timerUpdate k).redraw = s.redraw := rfl
@[simp] theorem State.timerUpdate_font (s : State) (k : Bool) : (s.timerUpdate k).font = s.font := rfl
@[simp] theorem State.timerUpdate_out (s : State) (k : Bool) :
    (s.timerUpdate k).out = { s.out with soundTrigger := s.out.soundTrigger || (s.st == 1 && k) } := rfl
@[simp] theorem State.timerUpdate_env (s : State) (k : Bool) : (s.timerUpdate k).env = s.env := rfl

/-! ### State.nextInput -/

@[simp] theorem State.nextInput_mem (s : State) : (s.nextInput).mem = s.mem := rfl
@[simp] theorem State.nextInput_v (s : State) : (s.nextInput).v = s.v := rfl
@[simp] theorem State.nextInput_i (s : State) : (s.nextInput).i = s.i := rfl
@[simp] theorem State.nextInput_pc (s : State) : (s.nextInput).pc = s.pc := rfl
@[simp] theorem State.nextInput_sp (s : State) : (s.nextInput).sp = s.sp := rfl
@[simp] theorem State.nextInput_stack (s : State) : (s.nextInput).stack = s.stack := rfl
@[simp] theorem State.nextInput_disp (s : State) : (s.nextInput).disp = s.disp := rfl
@[simp] theorem State.nextInput_dt (s : State) : (s.nextInput).dt = s.dt := rfl
@[simp] theorem State.nextInput_st (s : State) : (s.nextInput).st = s.st := rfl
@[simp] theorem State.nextInput_redraw (s : State) : (s.nextInput).redraw = s.redraw := rfl
@[simp] theorem State.nextInput_font (s : State) : (s.nextInput).font = s.font := rfl
@[simp] theorem State.nextInput_out (s : State) : (s.nextInput).out = s.out := rfl
@[simp] theorem State.nextInput_env (s : State) :
    (s.nextInput).env = { inputs := s.env.inputs.tail, drawn := s.env.drawn + 1, started := true } := rfl

/-! ### State.endCycle -/

@[simp] theorem State.endCycle_mem (s : State) : (s.endCycle).mem = s.mem := rfl
@[simp] theorem State.endCycle_v (s : State) : (s.endCycle).v = s.v := rfl
@[simp] theorem State.endCycle_i (s : State) : (s.endCycle).i = s.i := rfl
@[simp] theorem State.endCycle_pc (s : State) : (s.endCycle).pc = s.pc := rfl
@[simp] theorem State.endCycle_sp (s : State) : (s.endCycle).sp = s.sp := rfl
@[simp] theorem State.endCycle_stack (s : State) : (s.endCycle).stack = s.stack := rfl
@[simp] theorem State.endCycle_disp (s : State) : (s.endCycle).disp = s.disp := rfl
@[simp] theorem State.endCycle_dt (s : State) : (s.endCycle).dt = tickDown s.input.timerTick s.dt := rfl
@[simp] theorem State.endCycle_st (s : State) : (s.endCycle).st = tickDown s.input.timerTick s.st := rfl
@[simp] theorem State.endCycle_redraw (s : State) : (s.endCycle).redraw = s.redraw := rfl
@[simp] theorem State.endCycle_font (s : State) : (s.endCycle).font = s.font := rfl
@[simp] theorem State.endCycle_out (s : State) :
    (s.endCycle).out = { s.out with soundTrigger := s.out.soundTrigger || (s.st == 1 && s.input.timerTick) } := rfl
@[simp] theorem State.endCycle_env (s : State) :
    (s.endCycle).env = { inputs := s.env.inputs.tail, drawn := s.env.drawn + 1, started := true } := rfl

/-! ### State.supply -/

@[simp] theorem State.supply_mem (s : State) (inp : CycleInput) : (s.supply inp).mem = s.mem := rfl
@[simp] theorem State.supply_v (s : State) (inp : CycleInput) : (s.supply inp).v = s.v := rfl
@[simp] theorem State.supply_i (s : State) (inp : CycleInput) : (s.supply inp).i = s.i := rfl
@[simp] theorem State.supply_pc (s : State) (inp : CycleInput) : (s.supply inp).pc = s.pc := rfl
@[simp] theorem State.supply_sp (s : State) (inp : CycleInput) : (s.supply inp).sp = s.sp := rfl
@[simp] theorem State.supply_stack (s : State) (inp : CycleInput) : (s.supply inp).stack = s.stack := rfl
@[simp] theorem State.supply_disp (s : State) (inp : CycleInput) : (s.supply inp).disp = s.disp := rfl
@[simp] theorem State.supply_dt (s : State) (inp : CycleInput) : (s.supply inp).dt = s.dt := rfl
@[simp] theorem State.supply_st (s : State) (inp : CycleInput) : (s.supply inp).st = s.st := rfl
@[simp] theorem State.supply_redraw (s : State) (inp : CycleInput) : (s.supply inp).redraw = s.redraw := rfl
@[simp] theorem State.supply_font (s : State) (inp : CycleInput) : (s.supply inp).font = s.font := rfl
@[simp] theorem State.supply_out (s : State) (inp : CycleInput) : (s.supply inp).out = s.out := rfl
@[simp] theorem State.supply_env (s : State) (inp : CycleInput) :
    (s.supply inp).env = { s.env with inputs := inp :: s.env.inputs } := rfl

/-! ### State.ackRedraw -/

@[simp] theorem State.ackRedraw_mem (s : State) : (s.ackRedraw).mem = s.mem := rfl
@[simp] theorem State.ackRedraw_v (s : State) : (s.ackRedraw).v = s.v := rfl
@[simp] theorem State.ackRedraw_i (s : State) : (s.ackRedraw).i = s.i := rfl
@[simp] theorem State.ackRedraw_pc (s : State) : (s.ackRedraw).pc = s.pc := rfl
@[simp] theorem State.ackRedraw_sp (s : State) : (s.ackRedraw).sp = s.sp := rfl
@[simp] theorem State.ackRedraw_stack (s : State) : (s.ackRedraw).stack = s.stack := rfl
@[simp] theorem State.ackRedraw_disp (s : State) : (s.ackRedraw).disp = s.disp := rfl
@[simp] theorem State.ackRedraw_dt (s : State) : (s.ackRedraw).dt = s.dt := rfl
@[simp] theorem State.ackRedraw_st (s : State) : (s.ackRedraw).st = s.st := rfl
@[simp] theorem State.ackRedraw_redraw (s : State) : (s.ackRedraw).redraw = false := rfl
@[simp] theorem State.ackRedraw_font (s : State) : (s.ackRedraw).font = s.font := rfl
@[simp] theorem State.ackRedraw_out (s : State) : (s.ackRedraw).out = s.out := rfl
@[simp] theorem State.ackRedraw_env (s : State) : (s.ackRedraw).env = s.env := rfl

/-! ### State.runInitializer -/

@[simp] theorem State.runInitializer_mem (s : State) : (s.runInitializer).mem = [] := rfl
@[simp] theorem State.runInitializer_v (s : State) : (s.runInitializer).v = Vector.replicate 16 0 := rfl
@[simp] theorem State.runInitializer_i (s : State) : (s.runInitializer).i = 0 := rfl
@[simp] theorem State.runInitializer_pc (s : State) : (s.runInitializer).pc = Config.progBase := rfl
@[simp] theorem State.runInitializer_sp (s : State) : (s.runInitializer).sp = 0 := rfl
@[simp] theorem State.runInitializer_stack (s : State) : (s.runInitializer).stack = Vector.replicate 16 0 := rfl
@[simp] theorem State.runInitializer_disp (s : State) : (s.runInitializer).disp = blankDisplay := rfl
@[simp] theorem State.runInitializer_dt (s : State) : (s.runInitializer).dt = 0 := rfl
@[simp] theorem State.runInitializer_st (s : State) : (s.runInitializer).st = 0 := rfl
@[simp] theorem State.runInitializer_redraw (s : State) : (s.runInitializer).redraw = true := rfl
@[simp] theorem State.runInitializer_font (s : State) : (s.runInitializer).font = s.font := rfl
@[simp] theorem State.runInitializer_out (s : State) : (s.runInitializer).out = Outputs.clear := rfl
@[simp] theorem State.runInitializer_env (s : State) :
    (s.runInitializer).env = { inputs := s.env.inputs, drawn := s.env.drawn, started := false } := rfl

/-! ### State.storeBytes -/

@[simp] theorem State.storeBytes_v (s : State) (a : Word) (bs : List Byte) :
    (s.storeBytes a bs).v = s.v := by
  induction bs generalizing s a <;> simp [State.storeBytes, *]
@[simp] theorem State.storeBytes_i (s : State) (a : Word) (bs : List Byte) :
    (s.storeBytes a bs).i = s.i := by
  induction bs generalizing s a <;> simp [State.storeBytes, *]
@[simp] theorem State.storeBytes_pc (s : State) (a : Word) (bs : List Byte) :
    (s.storeBytes a bs).pc = s.pc := by
  induction bs generalizing s a <;> simp [State.storeBytes, *]
@[simp] theorem State.storeBytes_sp (s : State) (a : Word) (bs : List Byte) :
    (s.storeBytes a bs).sp = s.sp := by
  induction bs generalizing s a <;> simp [State.storeBytes, *]
@[simp] theorem State.storeBytes_stack (s : State) (a : Word) (bs : List Byte) :
    (s.storeBytes a bs).stack = s.stack := by
  induction bs generalizing s a <;> simp [State.storeBytes, *]
@[simp] theorem State.storeBytes_disp (s : State) (a : Word) (bs : List Byte) :
    (s.storeBytes a bs).disp = s.disp := by
  induction bs generalizing s a <;> simp [State.storeBytes, *]
@[simp] theorem State.storeBytes_dt (s : State) (a : Word) (bs : List Byte) :
    (s.storeBytes a bs).dt = s.dt := by
  induction bs generalizing s a <;> simp [State.storeBytes, *]
@[simp] theorem State.storeBytes_st (s : State) (a : Word) (bs : List Byte) :
    (s.storeBytes a bs).st = s.st := by
  induction bs generalizing s a <;> simp [State.storeBytes, *]
@[simp] theorem State.storeBytes_redraw (s : State) (a : Word) (bs : List Byte) :
    (s.storeBytes a bs).redraw = s.redraw := by
  induction bs generalizing s a <;> simp [State.storeBytes, *]
@[simp] theorem State.storeBytes_font (s : State) (a : Word) (bs : List Byte) :
    (s.storeBytes a bs).font = s.font := by
  induction bs generalizing s a <;> simp [State.storeBytes, *]
@[simp] theorem State.storeBytes_out (s : State) (a : Word) (bs : List Byte) :
    (s.storeBytes a bs).out = s.out := by
  induction bs generalizing s a <;> simp [State.storeBytes, *]
@[simp] theorem State.storeBytes_env (s : State) (a : Word) (bs : List Byte) :
    (s.storeBytes a bs).env = s.env := by
  induction bs generalizing s a <;> simp [State.storeBytes, *]

/-! ### State.loadRegs -/

@[simp] theorem State.loadRegs_mem (s : State) (a : Word) (k : Nat) :
    (s.loadRegs a k).mem = s.mem := by
  induction k <;> simp [State.loadRegs, *]
@[simp] theorem State.loadRegs_i (s : State) (a : Word) (k : Nat) :
    (s.loadRegs a k).i = s.i := by
  induction k <;> simp [State.loadRegs, *]
@[simp] theorem State.loadRegs_pc (s : State) (a : Word) (k : Nat) :
    (s.loadRegs a k).pc = s.pc := by
  induction k <;> simp [State.loadRegs, *]
@[simp] theorem State.loadRegs_sp (s : State) (a : Word) (k : Nat) :
    (s.loadRegs a k).sp = s.sp := by
  induction k <;> simp [State.loadRegs, *]
@[simp] theorem State.loadRegs_stack (s : State) (a : Word) (k : Nat) :
    (s.loadRegs a k).stack = s.stack := by
  induction k <;> simp [State.loadRegs, *]
@[simp] theorem State.loadRegs_disp (s : State) (a : Word) (k : Nat) :
    (s.loadRegs a k).disp = s.disp := by
  induction k <;> simp [State.loadRegs, *]
@[simp] theorem State.loadRegs_dt (s : State) (a : Word) (k : Nat) :
    (s.loadRegs a k).dt = s.dt := by
  induction k <;> simp [State.loadRegs, *]
@[simp] theorem State.loadRegs_st (s : State) (a : Word) (k : Nat) :
    (s.loadRegs a k).st = s.st := by
  induction k <;> simp [State.loadRegs, *]
@[simp] theorem State.loadRegs_redraw (s : State) (a : Word) (k : Nat) :
    (s.loadRegs a k).redraw = s.redraw := by
  induction k <;> simp [State.loadRegs, *]
@[simp] theorem State.loadRegs_font (s : State) (a : Word) (k : Nat) :
    (s.loadRegs a k).font = s.font := by
  induction k <;> simp [State.loadRegs, *]
@[simp] theorem State.loadRegs_out (s : State) (a : Word) (k : Nat) :
    (s.loadRegs a k).out = s.out := by
  induction k <;> simp [State.loadRegs, *]
@[simp] theorem State.loadRegs_env (s : State) (a : Word) (k : Nat) :
    (s.loadRegs a k).env = s.env := by
  induction k <;> simp [State.loadRegs, *]

end Sys2Proof.Machine
end

