-- ==== Sys2Proof/Laws/Memory.lean ====
section
/-!
SUPPORT. Main memory: a read after a write, the canonical form, and what a run of stored bytes leaves.
-/

namespace Sys2Proof.Machine

/-! ### The list. `f` is the font of the machine. -/

variable {f : Config.Font}

theorem resetByte_of_lt {a : Nat} (h : a < 80) : resetByte f a = f[a] := dif_pos h

theorem resetByte_of_le {a : Nat} (h : 80 ≤ a) : resetByte f a = 0 := dif_neg (Nat.not_lt.2 h)

theorem Memory.read_put (a b : Nat) (v : Byte) (m : Memory) :
    (Memory.put f a v m).read f b = if b = a then (if v = resetByte f a then m.read f a else v) else m.read f b := by
  unfold Memory.put
  split <;> rename_i h
  · split <;> simp_all
  · by_cases hb : b = a
    · simp [Memory.read, hb]
    · simp [Memory.read, hb, Ne.symm hb]

theorem Memory.read_of_lt (m : Memory) (a : Nat) (h : ∀ c ∈ m, a < c.1) : m.read f a = resetByte f a := by
  induction m with
  | nil => rfl
  | cons c m ih =>
    have hc := h c (by simp)
    simp only [Memory.read, if_neg (Nat.ne_of_gt hc)]
    exact ih fun d hd => h d (by simp [hd])

theorem Memory.mem_put {a : Nat} {v : Byte} {m : Memory} {c : Host.Cell} (h : c ∈ Memory.put f a v m) :
    c ∈ m ∨ (c = (a, v) ∧ v ≠ resetByte f a) := by
  unfold Memory.put at h
  split at h
  · exact .inl h
  · rcases List.mem_cons.1 h with h | h
    · exact .inr ⟨h, ‹_›⟩
    · exact .inl h

/-- A write adds at most its own entry. -/
theorem Memory.mem_write {m : Memory} {a : Nat} {v : Byte} {c : Host.Cell} (h : c ∈ m.write f a v) :
    c ∈ m ∨ (c = (a, v) ∧ v ≠ resetByte f a) := by
  induction m with
  | nil => exact Memory.mem_put h
  | cons d m ih =>
    simp only [Memory.write] at h
    split at h
    · rcases List.mem_cons.1 h with h | h
      · exact .inl (by simp [h])
      · exact (ih h).imp_left (List.mem_cons_of_mem d)
    · split at h
      · exact (Memory.mem_put h).imp_left (List.mem_cons_of_mem d)
      · exact Memory.mem_put h

theorem Memory.wf_nil : Memory.wf f [] := ⟨.nil, fun _ h => absurd h (List.not_mem_nil)⟩

theorem Memory.wf_cons {c : Host.Cell} {m : Memory} :
    Memory.wf f (c :: m) ↔ (∀ d ∈ m, c.1 < d.1) ∧ c.1 < 4096 ∧ c.2 ≠ resetByte f c.1 ∧ m.wf f := by
  simp only [Memory.wf, List.pairwise_cons, List.forall_mem_cons]
  tauto

theorem Memory.put_wf {m : Memory} {a : Nat} {v : Byte} (hm : m.wf f) (ha : a < 4096) (hlt : ∀ d ∈ m, a < d.1) :
    (Memory.put f a v m).wf f := by
  unfold Memory.put
  split
  · exact hm
  · exact Memory.wf_cons.2 ⟨hlt, ha, ‹_›, hm⟩

/-- Every write keeps the canonical form. -/
theorem Memory.write_wf {m : Memory} {a : Nat} {v : Byte} (hm : m.wf f) (ha : a < 4096) : (m.write f a v).wf f := by
  induction m with
  | nil => exact Memory.put_wf hm ha (by simp)
  | cons c m ih =>
    obtain ⟨h1, h2, h3, h4⟩ := Memory.wf_cons.1 hm
    simp only [Memory.write]
    split
    · refine Memory.wf_cons.2 ⟨fun d hd => ?_, h2, h3, ih h4⟩
      rcases Memory.mem_write hd with h | ⟨rfl, -⟩
      · exact h1 d h
      · assumption
    · split
      · rename_i hc
        exact Memory.put_wf h4 ha (hc ▸ h1)
      · refine Memory.put_wf hm ha fun d hd => ?_
        rcases List.mem_cons.1 hd with rfl | hd
        · omega
        · have := h1 d hd
          omega

/-- A read after a write, in a canonical memory. -/
theorem Memory.read_write {m : Memory} {a b : Nat} {v : Byte} (hm : m.wf f) :
    (m.write f a v).read f b = if b = a then v else m.read f b := by
  induction m with
  | nil =>
    simp only [Memory.write, Memory.read_put, Memory.read]
    split <;> simp_all
  | cons c m ih =>
    obtain ⟨h1, -, -, h4⟩ := Memory.wf_cons.1 hm
    simp only [Memory.write]
    split
    · simp only [Memory.read, ih h4]
      split <;> split <;> first | rfl | omega
    · split
      · rename_i hc
        simp only [Memory.read_put, Memory.read]
        have := Memory.read_of_lt (f := f) m a (hc ▸ h1)
        split <;> simp_all
        omega
      · have := Memory.read_of_lt (f := f) (c :: m) a (by
          simp only [List.forall_mem_cons]
          exact ⟨by omega, fun d hd => by have := h1 d hd; omega⟩)
        simp only [Memory.read_put]
        split <;> simp_all

/-- Equal memories are equal lists: two canonical memories that read alike are the same. -/
theorem Memory.eq_of_read_eq {m n : Memory} (hm : m.wf f) (hn : n.wf f) (h : ∀ a < 4096, m.read f a = n.read f a) : m = n := by
  induction m generalizing n with
  | nil =>
    cases n with
    | nil => rfl
    | cons d n =>
      obtain ⟨-, h2, h3, -⟩ := Memory.wf_cons.1 hn
      have := h d.1 h2
      simp only [Memory.read, if_true] at this
      exact absurd this.symm h3
  | cons c m ih =>
    obtain ⟨c1, c2, c3, c4⟩ := Memory.wf_cons.1 hm
    cases n with
    | nil =>
      have := h c.1 c2
      simp only [Memory.read, if_true] at this
      exact absurd this c3
    | cons d n =>
      obtain ⟨d1, d2, d3, d4⟩ := Memory.wf_cons.1 hn
      have hc := h c.1 c2
      have hd := h d.1 d2
      have key : c.1 = d.1 := by
        rcases Nat.lt_trichotomy c.1 d.1 with hlt | heq | hgt
        · rw [Memory.read_of_lt (d :: n) c.1 (by
            simp only [List.forall_mem_cons]
            exact ⟨hlt, fun e he => Nat.lt_trans hlt (d1 e he)⟩)] at hc
          simp only [Memory.read, if_true] at hc
          exact absurd hc c3
        · exact heq
        · rw [Memory.read_of_lt (c :: m) d.1 (by
            simp only [List.forall_mem_cons]
            exact ⟨hgt, fun e he => Nat.lt_trans hgt (c1 e he)⟩)] at hd
          simp only [Memory.read, if_true] at hd
          exact absurd hd.symm d3
      have hv : c.2 = d.2 := by simpa [Memory.read, key] using hc
      have : c = d := Prod.ext key hv
      subst this
      congr 1
      refine ih c4 d4 fun a ha => ?_
      by_cases hac : a = c.1
      · subst hac
        rw [Memory.read_of_lt m _ c1, Memory.read_of_lt n _ d1]
      · simpa [Memory.read, Ne.symm hac] using h a ha

/-! ### The state -/

/-- After reset memory holds the font below 0x050 and 0 above (R38). -/
theorem State.memRead_resetWith (f : Config.Font) (a : Word) : (State.resetWith f).memRead a = resetByte f (lineOf a) :=
  rfl

theorem State.memWf_resetWith (f : Config.Font) : (State.resetWith f).memWf := Memory.wf_nil

theorem lineOf_lt (a : Word) : lineOf a < 4096 := Nat.mod_lt _ (by decide)

theorem State.memWrite_wf {s : State} (a : Word) (v : Byte) (h : s.memWf) : (s.memWrite a v).memWf :=
  Memory.write_wf h (lineOf_lt a)

theorem State.memRead_memWrite {s : State} (a b : Word) (v : Byte) (h : s.memWf) :
    (s.memWrite a v).memRead b = if lineOf b = lineOf a then v else s.memRead b :=
  Memory.read_write h

theorem State.storeBytes_wf {s : State} (a : Word) (bs : List Byte) (h : s.memWf) : (s.storeBytes a bs).memWf := by
  induction bs generalizing s a with
  | nil => exact h
  | cons b bs ih => exact ih (a + 1) (State.memWrite_wf a b h)

/-- The line of the byte at offset `k` from `a`. -/
theorem lineOf_add (a : Word) (k : Nat) : lineOf (a + BitVec.ofNat 16 k) = (lineOf a + k) % 4096 := by
  simp only [lineOf, BitVec.toNat_add, BitVec.toNat_ofNat]
  omega

theorem word_add_succ (a : Word) (k : Nat) : a + BitVec.ofNat 16 (k + 1) = a + 1 + BitVec.ofNat 16 k := by
  apply BitVec.eq_of_toNat_eq
  have h1 : (1 : Word).toNat = 1 := rfl
  simp only [BitVec.toNat_add, BitVec.toNat_ofNat, h1]
  omega

/-- A line outside the bytes stored reads as before. -/
theorem State.memRead_storeBytes_other {s : State} (a b : Word) (bs : List Byte) (h : s.memWf)
    (hb : ∀ k < bs.length, lineOf b ≠ lineOf (a + BitVec.ofNat 16 k)) :
    (s.storeBytes a bs).memRead b = s.memRead b := by
  induction bs generalizing s a with
  | nil => rfl
  | cons c bs ih =>
    have h0 := hb 0 (by simp)
    simp only [BitVec.add_zero] at h0
    rw [State.storeBytes, ih (a + 1) (State.memWrite_wf a c h), State.memRead_memWrite _ _ _ h, if_neg h0]
    intro k hk
    have := hb (k + 1) (by simp; omega)
    rwa [word_add_succ] at this

/-- The byte at offset `k` of the bytes stored, at most 4096 of them, is the one stored there. -/
theorem State.memRead_storeBytes_at {s : State} (a b : Word) (bs : List Byte) (h : s.memWf) (hl : bs.length ≤ 4096)
    (k : Nat) (hk : k < bs.length) (hb : lineOf b = lineOf (a + BitVec.ofNat 16 k)) :
    (s.storeBytes a bs).memRead b = bs[k] := by
  induction bs generalizing s a k with
  | nil => simp at hk
  | cons c bs ih =>
    simp only [List.length_cons] at hl hk
    cases k with
    | zero =>
      simp only [BitVec.add_zero] at hb
      rw [State.storeBytes, State.memRead_storeBytes_other _ _ _ (State.memWrite_wf a c h),
        State.memRead_memWrite _ _ _ h, if_pos hb]
      · rfl
      · intro j hj
        have h1 := lineOf_add a (j + 1)
        have h2 := lineOf_lt a
        rw [← word_add_succ, h1, hb]
        omega
    | succ k =>
      have := ih (s := s.memWrite a c) (a + 1) (State.memWrite_wf a c h) (by omega) k (by omega) (by
        rw [hb, word_add_succ])
      simpa [State.storeBytes] using this

/-- What a run of bytes leaves in memory depends on the font, the memory, the line of the address and the bytes only. -/
theorem State.storeBytes_mem_congr {s t : State} {a b : Word} (bs : List Byte) (hf : s.font = t.font) (hm : s.mem = t.mem)
    (hab : lineOf a = lineOf b) : (s.storeBytes a bs).mem = (t.storeBytes b bs).mem := by
  induction bs generalizing s t a b with
  | nil => exact hm
  | cons c bs ih =>
    refine ih hf (by simp only [State.memWrite_mem, hf, hm, hab]) ?_
    have h1 := lineOf_add a 1
    have h2 := lineOf_add b 1
    rw [show BitVec.ofNat 16 1 = (1 : Word) from rfl] at h1 h2
    rw [h1, h2, hab]

/-- Canonical memories that read alike, of machines with any fonts, read alike after the same bytes are stored. -/
theorem State.memRead_storeBytes_congr {s t : State} (a : Word) (bs : List Byte) (hs : s.memWf) (ht : t.memWf)
    (h : ∀ b, s.memRead b = t.memRead b) (b : Word) : (s.storeBytes a bs).memRead b = (t.storeBytes a bs).memRead b := by
  induction bs generalizing s t a with
  | nil => exact h b
  | cons c bs ih =>
    refine ih (a + 1) (State.memWrite_wf a c hs) (State.memWrite_wf a c ht) fun d => ?_
    rw [State.memRead_memWrite a d c hs, State.memRead_memWrite a d c ht, h]

/-! ### Fetch -/

theorem wordOfBytes_bytes (w : Word) : wordOfBytes (highByte w) (lowByte w) = w := by
  apply BitVec.eq_of_toNat_eq
  simp only [wordOfBytes, highByte, lowByte, BitVec.extractLsb'_toNat, BitVec.toNat_ofNat, Nat.shiftRight_eq_div_pow]
  omega

/-- A word placed at `pc` is the word the next cycle fetches. -/
theorem State.fetchWord_placeWord {s : State} (w : Word) (h : s.memWf) : (s.placeWord w).fetchWord = w := by
  have h0 := State.memRead_storeBytes_at s.pc s.pc [highByte w, lowByte w] h (by simp) 0 (by simp) (by simp)
  have h1 := State.memRead_storeBytes_at s.pc (s.pc + 1) [highByte w, lowByte w] h (by simp) 1 (by simp) rfl
  simp only [List.getElem_cons_zero, List.getElem_cons_succ] at h0 h1
  simp only [State.fetchWord, State.placeWord, State.storeBytes_pc, h0, h1, wordOfBytes_bytes]

end Sys2Proof.Machine
end

