-- ==== Sys2Proof/Laws/Registers.lean ====
section
/-!
SUPPORT. Registers, operands and the call stack: what the shared operations read and leave.
-/

namespace Sys2Proof.Machine

/-! ### General registers -/

theorem State.getV_setV (s : State) (x r : Nibble) (b : Byte) :
    (s.setV x b).getV r = if r = x then b else s.getV r := by
  simp only [State.getV, State.setV, Vector.getElem_set, BitVec.toNat_inj, eq_comm (a := x)]

@[simp] theorem State.getV_setV_same (s : State) (x : Nibble) (b : Byte) : (s.setV x b).getV x = b := by
  simp [State.getV_setV]

/-- Flag, then result: at 15 the result stays (R173). -/
theorem State.getV_setFlagged (s : State) (x r : Nibble) (f b : Byte) :
    (s.setFlagged x f b).getV r = if r = x then b else if r = 0xF then f else s.getV r := by
  simp only [State.setFlagged, State.getV_setV]

/-- Two states with the same registers read alike. -/
theorem State.getV_congr {s t : State} (h : s.v = t.v) (r : Nibble) : s.getV r = t.getV r := by
  simp only [State.getV, h]

theorem State.v_ext {s t : State} (h : ∀ r, s.getV r = t.getV r) : s.v = t.v := by
  apply Vector.ext
  intro k hk
  have := h (BitVec.ofNat 4 k)
  simpa [State.getV, Nat.mod_eq_of_lt hk] using this

@[simp] theorem State.getV_advance (s : State) (r : Nibble) : s.advance.getV r = s.getV r := rfl
@[simp] theorem State.getV_skipIf (s : State) (c : Bool) (r : Nibble) : (s.skipIf c).getV r = s.getV r := by
  cases c <;> rfl
@[simp] theorem State.getV_jump (s : State) (a : Word) (r : Nibble) : (s.jump a).getV r = s.getV r := rfl
@[simp] theorem State.getV_setI (s : State) (a : Word) (r : Nibble) : (s.setI a).getV r = s.getV r := rfl
@[simp] theorem State.getV_waitForKey (s : State) (r : Nibble) : s.waitForKey.getV r = s.getV r := rfl
@[simp] theorem State.getV_beginCycle (s : State) (r : Nibble) : s.beginCycle.getV r = s.getV r := rfl
@[simp] theorem State.getV_endCycle (s : State) (r : Nibble) : s.endCycle.getV r = s.getV r := rfl
@[simp] theorem State.getV_memWrite (s : State) (a : Word) (b : Byte) (r : Nibble) :
    (s.memWrite a b).getV r = s.getV r := rfl
@[simp] theorem State.getV_storeBytes (s : State) (a : Word) (bs : List Byte) (r : Nibble) :
    (s.storeBytes a bs).getV r = s.getV r := State.getV_congr (by simp) r

/-! ### Memory reads of states with the same memory -/

/-- Two states with the same memory read alike at addresses of one line. -/
theorem State.memRead_congr {s t : State} {a b : Word} (hf : s.font = t.font) (hm : s.mem = t.mem)
    (hab : lineOf a = lineOf b) : s.memRead a = t.memRead b := by
  simp only [State.memRead, hf, hm, hab]

@[simp] theorem State.memRead_setV (s : State) (x : Nibble) (b : Byte) (a : Word) :
    (s.setV x b).memRead a = s.memRead a := rfl
@[simp] theorem State.memRead_setFlagged (s : State) (x : Nibble) (f b : Byte) (a : Word) :
    (s.setFlagged x f b).memRead a = s.memRead a := rfl
@[simp] theorem State.memRead_advance (s : State) (a : Word) : s.advance.memRead a = s.memRead a := rfl
@[simp] theorem State.memRead_skipIf (s : State) (c : Bool) (a : Word) : (s.skipIf c).memRead a = s.memRead a := by
  cases c <;> rfl
@[simp] theorem State.memRead_jump (s : State) (b a : Word) : (s.jump b).memRead a = s.memRead a := rfl
@[simp] theorem State.memRead_setI (s : State) (b a : Word) : (s.setI b).memRead a = s.memRead a := rfl
@[simp] theorem State.memRead_waitForKey (s : State) (a : Word) : s.waitForKey.memRead a = s.memRead a := rfl
@[simp] theorem State.memRead_beginCycle (s : State) (a : Word) : s.beginCycle.memRead a = s.memRead a := rfl
@[simp] theorem State.memRead_endCycle (s : State) (a : Word) : s.endCycle.memRead a = s.memRead a := rfl
@[simp] theorem State.memRead_loadRegs (s : State) (a : Word) (k : Nat) (b : Word) :
    (s.loadRegs a k).memRead b = s.memRead b := State.memRead_congr (by simp) (by simp) rfl

/-- The first `k` registers, at most 16, hold the bytes at `a` and upward, and the others what they held (R195). -/
theorem State.getV_loadRegs (s : State) (a : Word) (k : Nat) (hk : k ≤ 16) (r : Nibble) :
    (s.loadRegs a k).getV r = if r.toNat < k then s.memRead (a + BitVec.ofNat 16 r.toNat) else s.getV r := by
  induction k with
  | zero => simp [State.loadRegs]
  | succ k ih =>
    simp only [State.loadRegs, State.getV_setV, ih (by omega), State.memRead_loadRegs]
    have hr : r = BitVec.ofNat 4 k ↔ r.toNat = k := by
      rw [← BitVec.toNat_inj, BitVec.toNat_ofNat, Nat.mod_eq_of_lt (by omega)]
    by_cases h : r.toNat = k
    · simp [hr, h]
    · simp only [hr, h, if_false]
      split <;> split <;> first | rfl | omega

/-- The registers that a load leaves depend on the bytes of memory, the registers and the line of the address only. -/
theorem State.loadRegs_v_congr {s t : State} {a b : Word} (k : Nat)
    (hm : ∀ a b, lineOf a = lineOf b → s.memRead a = t.memRead b) (hv : s.v = t.v) (hab : lineOf a = lineOf b) :
    (s.loadRegs a k).v = (t.loadRegs b k).v := by
  induction k with
  | zero => exact hv
  | succ k ih =>
    simp only [State.loadRegs, State.setV_v, ih, State.memRead_loadRegs,
      hm (a + BitVec.ofNat 16 k) (b + BitVec.ofNat 16 k) (by simp only [lineOf_add, hab])]

@[simp] theorem State.length_regsUpTo (s : State) (x : Nibble) : (s.regsUpTo x).length = regCount x := by
  have := x.isLt
  simp only [State.regsUpTo, regCount, List.length_take, Vector.length_toList]
  omega

/-- The `k`-th value that store-registers stores is `V[k]` (R194). -/
theorem State.getElem_regsUpTo (s : State) (x : Nibble) (k : Nat) (hk : k < (s.regsUpTo x).length) :
    (s.regsUpTo x)[k] = s.getV (BitVec.ofNat 4 k) := by
  have h16 : k < 16 := by
    have := x.isLt
    simp only [State.length_regsUpTo, regCount] at hk
    omega
  simp [State.regsUpTo, State.getV, Nat.mod_eq_of_lt h16]

/-! ### Numbers of the operand forms -/

theorem zextAddr_toNat (nnn : Addr12) : (zextAddr nnn).toNat = nnn.toNat := by
  have := nnn.isLt
  simp only [zextAddr, BitVec.toNat_setWidth]
  omega

theorem zextByte_toNat (b : Byte) : (zextByte b).toNat = b.toNat := by
  have := b.isLt
  simp only [zextByte, BitVec.toNat_setWidth]
  omega

theorem keyIndex_toNat (b : Byte) : (keyIndex b).toNat = b.toNat % 16 := by
  simp [keyIndex, BitVec.extractLsb'_toNat]

/-! ### Inputs -/

theorem State.input_congr {s t : State} (h : s.env = t.env) : s.input = t.input := by
  simp only [State.input, h]

@[simp] theorem State.input_supply (s : State) (inp : CycleInput) : (s.supply inp).input = inp := rfl
@[simp] theorem State.input_beginCycle (s : State) : s.beginCycle.input = s.input := rfl

/-- What the lowest pressed key is: pressed, and no lower one pressed (R233). -/
theorem lowestKey_eq_some {key : BitVec 16} {k : Nibble} :
    lowestKey key = some k ↔ key.getLsbD k.toNat = true ∧ ∀ j : Nibble, j < k → key.getLsbD j.toNat = false := by
  have hk := k.isLt
  simp only [lowestKey, Option.map_eq_some_iff, List.find?_range_eq_some]
  constructor
  · rintro ⟨n, ⟨h1, hn, h2⟩, rfl⟩
    rw [List.mem_range] at hn
    simp only [BitVec.toNat_ofNat, Nat.mod_eq_of_lt hn]
    refine ⟨h1, fun j hj => ?_⟩
    have hj' : j.toNat < n := by simpa [BitVec.lt_def, Nat.mod_eq_of_lt hn] using hj
    simpa using h2 _ hj'
  · rintro ⟨h1, h2⟩
    refine ⟨k.toNat, ⟨h1, by simpa using hk, fun j hj => ?_⟩, by simp⟩
    have hj16 : j < 16 := by omega
    have := h2 (BitVec.ofNat 4 j) (by simpa [BitVec.lt_def, Nat.mod_eq_of_lt hj16] using hj)
    simpa [Nat.mod_eq_of_lt hj16] using this

theorem lowestKey_eq_none {key : BitVec 16} : lowestKey key = none ↔ key = 0 := by
  simp only [lowestKey, Option.map_eq_none_iff, List.find?_eq_none, List.mem_range, Bool.not_eq_true]
  constructor
  · intro h
    apply BitVec.eq_of_getLsbD_eq
    intro k hk
    simpa using h k hk
  · rintro rfl
    simp

/-! ### Call stack -/

/-- A push below capacity: the entry at `sp`, and `sp` one more (R25, R142). -/
theorem State.push_of_lt {s : State} (a : Word) (h : s.sp.val < 16) :
    s.push a = some { s with stack := s.stack.set s.sp.val a h, sp := ⟨s.sp.val + 1, Nat.succ_lt_succ h⟩ } := by
  simp [State.push, h]

theorem State.push_eq_none {s : State} {a : Word} : s.push a = none ↔ s.sp.val = 16 := by
  have := s.sp.isLt
  simp only [State.push]
  split <;> simp <;> omega

/-- Everything a push that succeeds does. -/
theorem State.push_eq_some {s t : State} {a : Word} (h : s.push a = some t) :
    ∃ hlt : s.sp.val < 16,
      t = { s with stack := s.stack.set s.sp.val a hlt, sp := ⟨s.sp.val + 1, Nat.succ_lt_succ hlt⟩ } := by
  simp only [State.push] at h
  split at h
  · exact ⟨‹_›, by simpa using h.symm⟩
  · cases h

/-- Everything a pop that succeeds does: `sp` one less, and the entry there, which stays (R25, R26, R140). -/
theorem State.pop_eq_some {s t : State} {a : Word} (h : s.pop = some (a, t)) :
    ∃ k, ∃ hk : k < 16, s.sp.val = k + 1 ∧ a = s.stack[k] ∧ t = { s with sp := ⟨k, by omega⟩ } := by
  unfold State.pop at h
  split at h
  · cases h
  · rename_i k hk hsp
    simp only [Option.some.injEq, Prod.mk.injEq] at h
    exact ⟨k, by omega, by simp [hsp], h.1.symm, h.2.symm⟩

theorem State.pop_eq_none {s : State} : s.pop = none ↔ s.sp.val = 0 := by
  unfold State.pop
  split <;> rename_i h <;> simp [h]

theorem State.pop_of_pos {s : State} (h : 0 < s.sp.val) :
    s.pop = some (s.stack[s.sp.val - 1]'(by omega), { s with sp := ⟨s.sp.val - 1, by omega⟩ }) := by
  unfold State.pop
  split <;> rename_i h' <;> simp [h'] at h ⊢

end Sys2Proof.Machine
end

