-- ==== Sys2Proof/Laws/Display.lean ====
section
/-!
SUPPORT. The sprite renderer: the display as a function of its cells, and what a drawn row and a drawn sprite leave.
-/

namespace Sys2Proof.Machine

theorem Display.ext {d e : Display} (h : ∀ yy xx, d.get yy xx = e.get yy xx) : d = e := by
  apply Vector.ext
  intro y hy
  apply BitVec.eq_of_getLsbD_eq
  intro x hx
  exact h ⟨y, hy⟩ ⟨x, hx⟩

@[simp] theorem blankDisplay_get (yy : Fin 32) (xx : Fin 64) : blankDisplay.get yy xx = false := by
  simp [blankDisplay, Display.get]

theorem Display.get_toggle (d : Display) (yy y : Fin 32) (xx x : Fin 64) :
    (d.toggle yy xx).get y x = (d.get y x ^^ decide (y = yy ∧ x = xx)) := by
  simp only [Display.get, Display.toggle, Vector.getElem_set]
  by_cases hy : y = yy
  · subst hy
    by_cases hx : x = xx
    · subst hx
      simp
    · have : ¬ x.val = xx.val := fun h => hx (Fin.ext h)
      simp [hx, this]
  · have : ¬ yy.val = y.val := fun h => hy (Fin.ext h).symm
    simp [hy, this]

theorem eq_cellCol {vx : Byte} {x : Fin 64} {k : Nat} (hk : k < 64) : x = cellCol vx k ↔ spriteCol vx x = k := by
  have := x.isLt
  simp only [Fin.ext_iff, cellCol, spriteCol, Fin.ofNat]
  omega

theorem eq_cellRow {vy : Byte} {y : Fin 32} {k : Nat} (hk : k < 32) : y = cellRow vy k ↔ spriteRow vy y = k := by
  have := y.isLt
  simp only [Fin.ext_iff, cellRow, spriteRow, Fin.ofNat]
  omega

/-- The cells of one sprite row: those of display row `yy` whose sprite column is below `k` and set are toggled. -/
theorem Canvas.drawCols_get (c : Canvas) (b vx : Byte) (yy y : Fin 32) (x : Fin 64) (k : Nat) (hk : k ≤ 8) :
    (c.drawCols b vx yy k).disp.get y x =
      (c.disp.get y x ^^ (decide (y = yy) && decide (spriteCol vx x < k) && b.getLsbD (7 - spriteCol vx x))) := by
  induction k with
  | zero => simp [Canvas.drawCols]
  | succ k ih =>
    have hc := eq_cellCol (vx := vx) (x := x) (k := k) (by omega)
    simp only [Canvas.drawCols]
    split
    · simp only [Canvas.plot, Display.get_toggle, ih (by omega), hc]
      by_cases h : spriteCol vx x = k
      · by_cases hy : y = yy <;> simp_all
      · have : spriteCol vx x < k + 1 ↔ spriteCol vx x < k := by omega
        simp [h, this]
    · rw [ih (by omega)]
      by_cases h : spriteCol vx x = k
      · simp_all
      · have : spriteCol vx x < k + 1 ↔ spriteCol vx x < k := by omega
        simp [this]

/-- The collision of one sprite row: some set bit lands on a cell that was 1. -/
theorem Canvas.drawCols_hit (c : Canvas) (b vx : Byte) (yy : Fin 32) (k : Nat) (hk : k ≤ 8) :
    (c.drawCols b vx yy k).hit = true ↔
      c.hit = true ∨ ∃ x, spriteCol vx x < k ∧ b.getLsbD (7 - spriteCol vx x) = true ∧ c.disp.get yy x = true := by
  induction k with
  | zero => simp [Canvas.drawCols]
  | succ k ih =>
    have hcol : spriteCol vx (cellCol vx k) = k := (eq_cellCol (by omega)).1 rfl
    have hget : (c.drawCols b vx yy k).disp.get yy (cellCol vx k) = c.disp.get yy (cellCol vx k) := by
      rw [Canvas.drawCols_get _ _ _ _ _ _ _ (by omega), hcol]
      simp
    simp only [Canvas.drawCols]
    split
    · rename_i hb
      simp only [Canvas.plot, Bool.or_eq_true, ih (by omega), hget]
      constructor
      · rintro ((h | ⟨x, h1, h2⟩) | h)
        · exact .inl h
        · exact .inr ⟨x, by omega, h2⟩
        · exact .inr ⟨_, by omega, by rwa [hcol], h⟩
      · rintro (h | ⟨x, h1, h2, h3⟩)
        · exact .inl (.inl h)
        · by_cases h : spriteCol vx x = k
          · exact .inr ((eq_cellCol (by omega)).2 h ▸ h3)
          · exact .inl (.inr ⟨x, by omega, h2, h3⟩)
    · rename_i hb
      rw [ih (by omega)]
      refine or_congr Iff.rfl ⟨fun ⟨x, h1, h2⟩ => ⟨x, by omega, h2⟩, fun ⟨x, h1, h2, h3⟩ => ⟨x, ?_, h2, h3⟩⟩
      by_cases h : spriteCol vx x = k
      · rw [h] at h2
        exact absurd h2 hb
      · omega

theorem State.spriteBit_succ (s : State) (vx vy : Byte) (n : Nat) (y : Fin 32) (x : Fin 64) (hn : n < 32) :
    s.spriteBit vx vy (n + 1) y x =
      (s.spriteBit vx vy n y x ^^ (decide (y = cellRow vy n) && decide (spriteCol vx x < 8) &&
        (s.memRead (s.effAddr n)).getLsbD (7 - spriteCol vx x))) := by
  simp only [State.spriteBit, eq_cellRow hn]
  by_cases h : spriteRow vy y = n
  · simp [h]
  · have : spriteRow vy y < n + 1 ↔ spriteRow vy y < n := by omega
    simp [h, this]

/-- The display after a draw: every cell XOR the sprite bit that lands on it (R211). -/
theorem State.drawRows_get (s : State) (vx vy : Byte) (n : Nat) (hn : n ≤ 15) (y : Fin 32) (x : Fin 64) :
    (s.drawRows vx vy n).disp.get y x = (s.disp.get y x ^^ s.spriteBit vx vy n y x) := by
  induction n with
  | zero => simp [State.drawRows, State.spriteBit]
  | succ n ih =>
    rw [State.spriteBit_succ _ _ _ _ _ _ (by omega), ← Bool.xor_assoc, ← ih (by omega)]
    exact Canvas.drawCols_get _ _ _ _ _ _ 8 (by omega)

/-- The collision of a draw: some set sprite bit lands on a cell that was 1 before the draw (R211). -/
theorem State.drawRows_hit (s : State) (vx vy : Byte) (n : Nat) (hn : n ≤ 15) :
    (s.drawRows vx vy n).hit = true ↔ ∃ y x, s.spriteBit vx vy n y x = true ∧ s.disp.get y x = true := by
  induction n with
  | zero => simp [State.drawRows, State.spriteBit]
  | succ n ih =>
    have hrow : spriteRow vy (cellRow vy n) = n := (eq_cellRow (by omega)).1 rfl
    have hno : ∀ x, s.spriteBit vx vy n (cellRow vy n) x = false := by simp [State.spriteBit, hrow]
    have hsucc : ∀ x, s.spriteBit vx vy (n + 1) (cellRow vy n) x =
        (decide (spriteCol vx x < 8) && (s.memRead (s.effAddr n)).getLsbD (7 - spriteCol vx x)) := by
      simp [State.spriteBit, hrow]
    simp only [State.drawRows, Canvas.drawCols_hit _ _ _ _ 8 (Nat.le_refl 8), ih (by omega),
      State.drawRows_get _ _ _ _ (show n ≤ 15 by omega), hno, Bool.xor_false]
    constructor
    · rintro (⟨y, x, h1, h2⟩ | ⟨x, h1, h2, h3⟩)
      · refine ⟨y, x, ?_, h2⟩
        simp only [State.spriteBit, Bool.and_eq_true, decide_eq_true_eq] at h1 ⊢
        exact ⟨⟨by omega, h1.1.2⟩, h1.2⟩
      · exact ⟨_, x, by rw [hsucc]; simpa [h1] using h2, h3⟩
    · rintro ⟨y, x, h1, h2⟩
      by_cases h : y = cellRow vy n
      · subst h
        rw [hsucc, Bool.and_eq_true, decide_eq_true_eq] at h1
        exact .inr ⟨x, h1.1, h1.2, h2⟩
      · rw [State.spriteBit_succ _ _ _ _ _ _ (by omega)] at h1
        exact .inl ⟨y, x, by simpa [h] using h1, h2⟩

/-- What a draw leaves depends on the bytes of memory, the display and the line of I only. -/
theorem State.drawRows_congr {s t : State} (vx vy : Byte) (n : Nat)
    (hm : ∀ a b, lineOf a = lineOf b → s.memRead a = t.memRead b) (hd : s.disp = t.disp)
    (hi : lineOf s.i = lineOf t.i) : s.drawRows vx vy n = t.drawRows vx vy n := by
  induction n with
  | zero => simp only [State.drawRows, hd]
  | succ n ih => simp only [State.drawRows, ih, hm (s.effAddr n) (t.effAddr n) (by simp only [State.effAddr, lineOf_add, hi])]

end Sys2Proof.Machine
end

