-- ==== Sys2Proof/Laws/Exec.lean ====
section
/-!
SUPPORT. What any instruction can do: the ways it can fault, that none is refused, and what all of them leave alone.
-/

namespace Sys2Proof.Machine

@[simp] theorem raise_eq (f : Fault) : raise f = .fault f := rfl

/-- The two instructions that can fault, and when (R250, R255). -/
theorem exec_eq_fault {i : Instr} {s : State} {f : Fault} (h : exec i s = .fault f) :
    (∃ nnn, i = .call nnn ∧ s.sp.val = 16 ∧ f = .stackOverflow (encodeWord (.call nnn)) s.pc) ∨
    (i = .ret ∧ s.sp.val = 0 ∧ f = .stackUnderflow (encodeWord .ret) s.pc) := by
  cases i with
  | call nnn =>
    simp only [exec, execCall] at h
    split at h
    · exact .inl ⟨nnn, rfl, State.push_eq_none.1 ‹_›, by simpa using h.symm⟩
    · cases h
  | ret =>
    simp only [exec, execRet] at h
    split at h
    · exact .inr ⟨rfl, State.pop_eq_none.1 ‹_›, by simpa using h.symm⟩
    · cases h
  | _ => cases h

theorem exec_ne_refused (i : Instr) (s : State) (r : Refusal) : exec i s ≠ .refused r := by
  cases i with
  | call nnn => simp only [exec, execCall]; split <;> simp
  | ret => simp only [exec, execRet]; split <;> simp
  | _ => intro h; cases h

/-- A call that runs: what it leaves (R142). -/
theorem execCall_eq_next {nnn : Addr12} {s t : State} (h : execCall nnn s = .next t) :
    ∃ hlt : s.sp.val < 16, t = { s with
      stack := s.stack.set s.sp.val s.pc hlt, sp := ⟨s.sp.val + 1, Nat.succ_lt_succ hlt⟩, pc := zextAddr nnn } := by
  simp only [execCall] at h
  split at h
  · cases h
  · rename_i u hu
    obtain ⟨hlt, rfl⟩ := State.push_eq_some hu
    exact ⟨hlt, (Host.Outcome.next.inj h).symm⟩

/-- A return that runs: what it leaves (R140). -/
theorem execRet_eq_next {s t : State} (h : execRet s = .next t) :
    ∃ k, ∃ hk : k < 16, s.sp.val = k + 1 ∧ t = { s with sp := ⟨k, by omega⟩, pc := s.stack[k] + 2 } := by
  simp only [execRet] at h
  split at h
  · cases h
  · rename_i a u hu
    obtain ⟨k, hk, hsp, rfl, rfl⟩ := State.pop_eq_some hu
    exact ⟨k, hk, hsp, (Host.Outcome.next.inj h).symm⟩

/-- No instruction touches the host's side. -/
theorem exec_env {i : Instr} {s t : State} (h : exec i s = .next t) : t.env = s.env := by
  cases i with
  | call nnn => obtain ⟨_, rfl⟩ := execCall_eq_next h; rfl
  | ret => obtain ⟨_, _, _, rfl⟩ := execRet_eq_next h; rfl
  | ldVxK x =>
    simp only [exec, execLdVxK, Host.Outcome.next.injEq] at h
    subst h
    split <;> simp
  | _ => cases h; simp

/-- No instruction touches the parameter `FONT`. -/
theorem exec_font {i : Instr} {s t : State} (h : exec i s = .next t) : t.font = s.font := by
  cases i with
  | call nnn => obtain ⟨_, rfl⟩ := execCall_eq_next h; rfl
  | ret => obtain ⟨_, _, _, rfl⟩ := execRet_eq_next h; rfl
  | ldVxK x =>
    simp only [exec, execLdVxK, Host.Outcome.next.injEq] at h
    subst h
    split <;> simp
  | _ => cases h; simp

/-- No instruction touches the output pins, but for a `LD Vx, K` that waits, which does nothing else (R233). -/
theorem exec_out {i : Instr} {s t : State} (h : exec i s = .next t) :
    t.out = s.out ∨ ∃ x, i = .ldVxK x ∧ s.input.key = 0 ∧ t = s.waitForKey := by
  cases i with
  | call nnn => obtain ⟨_, rfl⟩ := execCall_eq_next h; exact .inl rfl
  | ret => obtain ⟨_, _, _, rfl⟩ := execRet_eq_next h; exact .inl rfl
  | ldVxK x =>
    simp only [exec, execLdVxK, Host.Outcome.next.injEq] at h
    subst h
    split
    · exact .inr ⟨x, rfl, lowestKey_eq_none.1 ‹_›, rfl⟩
    · exact .inl (by simp)
  | _ => cases h; exact .inl (by simp)

/-- Every instruction keeps memory canonical. -/
theorem exec_mem_wf {i : Instr} {s t : State} (h : exec i s = .next t) (hs : s.memWf) : t.memWf := by
  cases i with
  | call nnn => obtain ⟨_, rfl⟩ := execCall_eq_next h; exact hs
  | ret => obtain ⟨_, _, _, rfl⟩ := execRet_eq_next h; exact hs
  | ldVxK x =>
    simp only [exec, execLdVxK, Host.Outcome.next.injEq] at h
    subst h
    split <;> simpa [State.memWf] using hs
  | ldB x => cases h; simpa [State.memWf] using State.storeBytes_wf _ _ hs
  | ldMemVx x => cases h; simpa [State.memWf] using State.storeBytes_wf _ _ hs
  | _ => cases h; simpa [State.memWf] using hs

end Sys2Proof.Machine
end

