-- ==== Sys2Proof/Laws/Cycle.lean ====
section
/-!
SUPPORT. The cycle: what fetch and decode select, and everything a step can do.
-/

namespace Sys2Proof.Machine

@[simp] theorem State.fetchWord_beginCycle (s : State) : s.beginCycle.fetchWord = s.fetchWord := rfl

/-- A word that decodes is executed. -/
theorem attempt_of_decode {s : State} {i : Instr} (h : decodeWord s.fetchWord = some i) : attempt s = exec i s := by
  simp only [State.fetchWord] at h
  simp only [attempt, decode, h]

/-- A word that matches no row raises UnsupportedOpcode (R251). -/
theorem attempt_of_unsupported {s : State} (h : decodeWord s.fetchWord = none) :
    attempt s = .fault (.unsupportedOpcode s.fetchWord s.pc) := by
  have h' := h
  simp only [State.fetchWord] at h'
  simp only [attempt, decode, h', raise_eq]

/-- Everything a step that goes on can do: an instruction was fetched and ran, and the cycle ended. -/
theorem step_eq_next {s u : State} (h : step s = .next u) :
    ∃ i t, decodeWord s.fetchWord = some i ∧ exec i s.beginCycle = .next t ∧ u = t.endCycle := by
  simp only [step, runCycle] at h
  cases hd : decodeWord s.fetchWord with
  | none => simp [attempt_of_unsupported (s := s.beginCycle) hd] at h
  | some i =>
    rw [attempt_of_decode (s := s.beginCycle) hd] at h
    cases he : exec i s.beginCycle with
    | next t => rw [he] at h; exact ⟨i, t, rfl, he, by simpa using h.symm⟩
    | fault f => rw [he] at h; cases h
    | refused r => exact absurd he (exec_ne_refused _ _ _)

/-- The step of a decoded instruction. -/
theorem step_of_decode {s : State} {i : Instr} (h : decodeWord s.fetchWord = some i) :
    step s = match exec i s.beginCycle with
      | .next t => .next t.endCycle
      | .fault f => .fault f
      | .refused r => .refused r := by
  exact congrArg (fun o : Host.Outcome State Fault Refusal => (match o with
    | .next t => .next t.endCycle
    | .fault f => .fault f
    | .refused r => .refused r : Host.Outcome State Fault Refusal)) (attempt_of_decode (s := s.beginCycle) h)

/-- Everything a fault of a step can be: no row for the word, or the fault of the instruction that the word is. -/
theorem step_eq_fault {s : State} {f : Fault} (h : step s = .fault f) :
    (decodeWord s.fetchWord = none ∧ f = .unsupportedOpcode s.fetchWord s.pc) ∨
    ∃ i, decodeWord s.fetchWord = some i ∧ exec i s.beginCycle = .fault f := by
  cases hd : decodeWord s.fetchWord with
  | none =>
    simp only [step, runCycle, attempt_of_unsupported (s := s.beginCycle) hd] at h
    exact .inl ⟨rfl, by simpa using h.symm⟩
  | some i =>
    rw [step_of_decode hd] at h
    cases he : exec i s.beginCycle with
    | fault g => rw [he] at h; exact .inr ⟨i, rfl, by simpa [he] using h⟩
    | next t => rw [he] at h; cases h
    | refused r => exact absurd he (exec_ne_refused _ _ _)

theorem attempt_ne_refused (s : State) (r : Refusal) : attempt s ≠ .refused r := by
  cases hd : decodeWord s.fetchWord with
  | none => simp [attempt_of_unsupported hd]
  | some i => rw [attempt_of_decode hd]; exact exec_ne_refused i s r

/-- The cycle of the hardware against the step of a run: the same next state, or a faulting cycle (R130). -/
theorem cycle_eq (s : State) :
    (∃ u, step s = .next u ∧ cycle s = .next u) ∨
    ∃ f, step s = .fault f ∧ cycle s = .next (s.beginCycle.reportFault f).endCycle := by
  simp only [step, runCycle, cycle]
  cases h : attempt s.beginCycle with
  | next t => exact .inl ⟨_, rfl, rfl⟩
  | fault f => exact .inr ⟨f, rfl, rfl⟩
  | refused r => exact absurd h (attempt_ne_refused _ _)

/-! ### The timer updater -/

/-- A tick takes one from a timer and stops at 0 (R264). -/
theorem tickDown_true (t : Byte) : (tickDown true t).toNat = t.toNat - 1 := by
  have := t.isLt
  unfold tickDown
  split
  · rename_i h
    subst h
    rfl
  · rename_i h
    have : t.toNat ≠ 0 := fun e => h (BitVec.eq_of_toNat_eq e)
    rw [if_pos rfl, BitVec.toNat_sub]
    rw [show (1 : Byte).toNat = 1 from rfl]
    omega

@[simp] theorem tickDown_false (t : Byte) : tickDown false t = t := by
  unfold tickDown
  simp

theorem tickDown_le (k : Bool) (t : Byte) : (tickDown k t).toNat ≤ t.toNat := by
  cases k
  · rw [tickDown_false]
  · rw [tickDown_true]
    omega

end Sys2Proof.Machine
end

