-- ==== Sys2Proof/Laws/PerInstr.lean ====
section
/-!
SUPPORT. Laws about every instruction as syntax, one lemma per constructor: its word lies in its row of the opcode
table (R95), and its operands fit their fields (R93).
-/

namespace Sys2Proof.Laws

open Sys2Proof

/-- The word of `i` is accepted by the row of the table that bears its mnemonic. -/
def EncodesInRow.Statement (i : Instr) : Prop :=
  ∃ row ∈ opcodeTable, row.mnemonic = mnemonicOf i ∧ encodeWord i &&& row.mask = row.pattern

theorem EncodesInRow.cls : EncodesInRow.Statement .cls :=
  ⟨⟨"CLS", 0xFFFF, 0x00E0⟩, by decide, rfl, by decide⟩

theorem EncodesInRow.ret : EncodesInRow.Statement .ret :=
  ⟨⟨"RET", 0xFFFF, 0x00EE⟩, by decide, rfl, by decide⟩

theorem EncodesInRow.jp (nnn : Addr12) : EncodesInRow.Statement (.jp nnn) :=
  ⟨⟨"JP_nnn", 0xF000, 0x1000⟩, by decide, rfl, (and_F000 _ _ rfl rfl rfl).2 (by simp [encodeWord]; rfl)⟩

theorem EncodesInRow.call (nnn : Addr12) : EncodesInRow.Statement (.call nnn) :=
  ⟨⟨"CALL_nnn", 0xF000, 0x2000⟩, by decide, rfl, (and_F000 _ _ rfl rfl rfl).2 (by simp [encodeWord]; rfl)⟩

theorem EncodesInRow.seImm (x : Nibble) (nn : Byte) : EncodesInRow.Statement (.seImm x nn) :=
  ⟨⟨"SE_Vx__nn", 0xF000, 0x3000⟩, by decide, rfl, (and_F000 _ _ rfl rfl rfl).2 (by simp [encodeWord]; rfl)⟩

theorem EncodesInRow.sneImm (x : Nibble) (nn : Byte) : EncodesInRow.Statement (.sneImm x nn) :=
  ⟨⟨"SNE_Vx__nn", 0xF000, 0x4000⟩, by decide, rfl, (and_F000 _ _ rfl rfl rfl).2 (by simp [encodeWord]; rfl)⟩

theorem EncodesInRow.seReg (x y : Nibble) : EncodesInRow.Statement (.seReg x y) :=
  ⟨⟨"SE_Vx__Vy", 0xF00F, 0x5000⟩, by decide, rfl, (and_F00F _ _ rfl rfl).2 (by simp [encodeWord]; decide)⟩

theorem EncodesInRow.ldImm (x : Nibble) (nn : Byte) : EncodesInRow.Statement (.ldImm x nn) :=
  ⟨⟨"LD_Vx__nn", 0xF000, 0x6000⟩, by decide, rfl, (and_F000 _ _ rfl rfl rfl).2 (by simp [encodeWord]; rfl)⟩

theorem EncodesInRow.addImm (x : Nibble) (nn : Byte) : EncodesInRow.Statement (.addImm x nn) :=
  ⟨⟨"ADD_Vx__nn", 0xF000, 0x7000⟩, by decide, rfl, (and_F000 _ _ rfl rfl rfl).2 (by simp [encodeWord]; rfl)⟩

theorem EncodesInRow.ldReg (x y : Nibble) : EncodesInRow.Statement (.ldReg x y) :=
  ⟨⟨"LD_Vx__Vy", 0xF00F, 0x8000⟩, by decide, rfl, (and_F00F _ _ rfl rfl).2 (by simp [encodeWord]; decide)⟩

theorem EncodesInRow.orReg (x y : Nibble) : EncodesInRow.Statement (.orReg x y) :=
  ⟨⟨"OR_Vx__Vy", 0xF00F, 0x8001⟩, by decide, rfl, (and_F00F _ _ rfl rfl).2 (by simp [encodeWord]; decide)⟩

theorem EncodesInRow.andReg (x y : Nibble) : EncodesInRow.Statement (.andReg x y) :=
  ⟨⟨"AND_Vx__Vy", 0xF00F, 0x8002⟩, by decide, rfl, (and_F00F _ _ rfl rfl).2 (by simp [encodeWord]; decide)⟩

theorem EncodesInRow.xorReg (x y : Nibble) : EncodesInRow.Statement (.xorReg x y) :=
  ⟨⟨"XOR_Vx__Vy", 0xF00F, 0x8003⟩, by decide, rfl, (and_F00F _ _ rfl rfl).2 (by simp [encodeWord]; decide)⟩

theorem EncodesInRow.addReg (x y : Nibble) : EncodesInRow.Statement (.addReg x y) :=
  ⟨⟨"ADD_Vx__Vy", 0xF00F, 0x8004⟩, by decide, rfl, (and_F00F _ _ rfl rfl).2 (by simp [encodeWord]; decide)⟩

theorem EncodesInRow.subReg (x y : Nibble) : EncodesInRow.Statement (.subReg x y) :=
  ⟨⟨"SUB_Vx__Vy", 0xF00F, 0x8005⟩, by decide, rfl, (and_F00F _ _ rfl rfl).2 (by simp [encodeWord]; decide)⟩

theorem EncodesInRow.shr (x y : Nibble) : EncodesInRow.Statement (.shr x y) :=
  ⟨⟨"SHR_Vx", 0xF00F, 0x8006⟩, by decide, rfl, (and_F00F _ _ rfl rfl).2 (by simp [encodeWord]; decide)⟩

theorem EncodesInRow.subnReg (x y : Nibble) : EncodesInRow.Statement (.subnReg x y) :=
  ⟨⟨"SUBN_Vx__Vy", 0xF00F, 0x8007⟩, by decide, rfl, (and_F00F _ _ rfl rfl).2 (by simp [encodeWord]; decide)⟩

theorem EncodesInRow.shl (x y : Nibble) : EncodesInRow.Statement (.shl x y) :=
  ⟨⟨"SHL_Vx", 0xF00F, 0x800E⟩, by decide, rfl, (and_F00F _ _ rfl rfl).2 (by simp [encodeWord]; decide)⟩

theorem EncodesInRow.sneReg (x y : Nibble) : EncodesInRow.Statement (.sneReg x y) :=
  ⟨⟨"SNE_Vx__Vy", 0xF00F, 0x9000⟩, by decide, rfl, (and_F00F _ _ rfl rfl).2 (by simp [encodeWord]; decide)⟩

theorem EncodesInRow.ldI (nnn : Addr12) : EncodesInRow.Statement (.ldI nnn) :=
  ⟨⟨"LD_I__nnn", 0xF000, 0xA000⟩, by decide, rfl, (and_F000 _ _ rfl rfl rfl).2 (by simp [encodeWord]; rfl)⟩

theorem EncodesInRow.jpV0 (nnn : Addr12) : EncodesInRow.Statement (.jpV0 nnn) :=
  ⟨⟨"JP_V0__nnn", 0xF000, 0xB000⟩, by decide, rfl, (and_F000 _ _ rfl rfl rfl).2 (by simp [encodeWord]; rfl)⟩

theorem EncodesInRow.rnd (x : Nibble) (nn : Byte) : EncodesInRow.Statement (.rnd x nn) :=
  ⟨⟨"RND_Vx__nn", 0xF000, 0xC000⟩, by decide, rfl, (and_F000 _ _ rfl rfl rfl).2 (by simp [encodeWord]; rfl)⟩

theorem EncodesInRow.drw (x y n : Nibble) : EncodesInRow.Statement (.drw x y n) :=
  ⟨⟨"DRW_Vx__Vy__n", 0xF000, 0xD000⟩, by decide, rfl, (and_F000 _ _ rfl rfl rfl).2 (by simp [encodeWord]; rfl)⟩

theorem EncodesInRow.skp (x : Nibble) : EncodesInRow.Statement (.skp x) :=
  ⟨⟨"SKP_Vx", 0xF0FF, 0xE09E⟩, by decide, rfl, (and_F0FF _ _ rfl).2 (by simp [encodeWord]; decide)⟩

theorem EncodesInRow.sknp (x : Nibble) : EncodesInRow.Statement (.sknp x) :=
  ⟨⟨"SKNP_Vx", 0xF0FF, 0xE0A1⟩, by decide, rfl, (and_F0FF _ _ rfl).2 (by simp [encodeWord]; decide)⟩

theorem EncodesInRow.ldVxDT (x : Nibble) : EncodesInRow.Statement (.ldVxDT x) :=
  ⟨⟨"LD_Vx__DT", 0xF0FF, 0xF007⟩, by decide, rfl, (and_F0FF _ _ rfl).2 (by simp [encodeWord]; decide)⟩

theorem EncodesInRow.ldVxK (x : Nibble) : EncodesInRow.Statement (.ldVxK x) :=
  ⟨⟨"LD_Vx__K", 0xF0FF, 0xF00A⟩, by decide, rfl, (and_F0FF _ _ rfl).2 (by simp [encodeWord]; decide)⟩

theorem EncodesInRow.ldDTVx (x : Nibble) : EncodesInRow.Statement (.ldDTVx x) :=
  ⟨⟨"LD_DT__Vx", 0xF0FF, 0xF015⟩, by decide, rfl, (and_F0FF _ _ rfl).2 (by simp [encodeWord]; decide)⟩

theorem EncodesInRow.ldSTVx (x : Nibble) : EncodesInRow.Statement (.ldSTVx x) :=
  ⟨⟨"LD_ST__Vx", 0xF0FF, 0xF018⟩, by decide, rfl, (and_F0FF _ _ rfl).2 (by simp [encodeWord]; decide)⟩

theorem EncodesInRow.addI (x : Nibble) : EncodesInRow.Statement (.addI x) :=
  ⟨⟨"ADD_I__Vx", 0xF0FF, 0xF01E⟩, by decide, rfl, (and_F0FF _ _ rfl).2 (by simp [encodeWord]; decide)⟩

theorem EncodesInRow.ldF (x : Nibble) : EncodesInRow.Statement (.ldF x) :=
  ⟨⟨"LD_F__Vx", 0xF0FF, 0xF029⟩, by decide, rfl, (and_F0FF _ _ rfl).2 (by simp [encodeWord]; decide)⟩

theorem EncodesInRow.ldB (x : Nibble) : EncodesInRow.Statement (.ldB x) :=
  ⟨⟨"LD_B__Vx", 0xF0FF, 0xF033⟩, by decide, rfl, (and_F0FF _ _ rfl).2 (by simp [encodeWord]; decide)⟩

theorem EncodesInRow.ldMemVx (x : Nibble) : EncodesInRow.Statement (.ldMemVx x) :=
  ⟨⟨"LD__I___Vx", 0xF0FF, 0xF055⟩, by decide, rfl, (and_F0FF _ _ rfl).2 (by simp [encodeWord]; decide)⟩

theorem EncodesInRow.ldVxMem (x : Nibble) : EncodesInRow.Statement (.ldVxMem x) :=
  ⟨⟨"LD_Vx___I", 0xF0FF, 0xF065⟩, by decide, rfl, (and_F0FF _ _ rfl).2 (by simp [encodeWord]; decide)⟩

/-- Every instruction is well formed: the types of its fields carry the checks. -/
theorem wellFormed_all (i : Instr) : i.wellFormed = true := by
  have h4 (x : Nibble) : x.toNat < 16 := x.isLt
  have h8 (b : Byte) : b.toNat < 256 := b.isLt
  have h12 (a : Addr12) : a.toNat < 4096 := a.isLt
  cases i <;> simp only [Instr.wellFormed, fitsRegister, fitsImmediate, fitsCount, fitsAddress, h4, h8, h12,
    decide_true, Bool.and_self]

end Sys2Proof.Laws
end

