-- ==== Sys2Proof/Tests/Slice0.lean ====
section
/-!
SUPPORT. The model's own tests. Expected results are those of spec/95_test_vectors.md (its part or entry is named
beside each test), of an instruction rule's example, or worked out by hand from the pattern of spec 30_encoding.md R95.
-/

namespace Sys2Proof.Machine.Test

open Sys2Proof Sys2Proof.Machine

set_option maxRecDepth 20000

/-! ## Helpers -/

/-- The machine after reset with the word `w` where the next cycle fetches it, and the inputs of that cycle. -/
def boot (w : Nat) (key : BitVec 16 := 0) (rand : Byte := 0) (tick : Bool := true) : State :=
  (State.reset.withFetchWord 16 w).supply { key := key, rand := rand, timerTick := tick }

/-- What `f` says of the state after one step; none where the run ends. -/
def after {α : Type} (s : State) (f : State → α) : Option α :=
  match step s with
  | .next t => some (f t)
  | _ => none

/-- The fault at which a step ends. -/
def faultOf (s : State) : Option Fault :=
  match step s with
  | .fault f => some f
  | _ => none

/-- What `f` says of the state after one cycle of the hardware. -/
def afterCycle {α : Type} (s : State) (f : State → α) : Option α :=
  match cycle s with
  | .next t => some (f t)
  | _ => none

/-- A display on which just these cells (column, row) are set. -/
def cells (l : List (Fin 64 × Fin 32)) : Display := l.foldl (fun d c => d.toggle c.2 c.1) blankDisplay

/-! ## Well-formedness: an ill-formed term for each check, refused (R93) -/

theorem test_fitsRegister_refuses : fitsRegister 16 = false ∧ fitsRegister 15 = true := by decide
theorem test_fitsCount_refuses : fitsCount 16 = false ∧ fitsCount 15 = true := by decide
theorem test_fitsImmediate_refuses : fitsImmediate 256 = false ∧ fitsImmediate 255 = true := by decide
theorem test_fitsAddress_refuses : fitsAddress 4096 = false ∧ fitsAddress 4095 = true := by decide
theorem test_instrA_refuses : instrA .jp 4096 = none ∧ instrA .jp 4095 = some (.jp 0xFFF) := by decide
theorem test_instrXI_refuses :
    instrXI .ldImm 16 0 = none ∧ instrXI .ldImm 0 256 = none ∧ instrXI .ldImm 15 255 = some (.ldImm 0xF 0xFF) := by
  decide
theorem test_instrXY_refuses :
    instrXY .addReg 16 0 = none ∧ instrXY .addReg 0 16 = none ∧ instrXY .addReg 1 2 = some (.addReg 1 2) := by decide
theorem test_instrXYN_refuses :
    instrXYN .drw 16 0 0 = none ∧ instrXYN .drw 0 16 0 = none ∧ instrXYN .drw 0 0 16 = none ∧
    instrXYN .drw 1 2 15 = some (.drw 1 2 0xF) := by decide
theorem test_instrX_refuses : instrX .skp 16 = none ∧ instrX .skp 15 = some (.skp 0xF) := by decide

/-! ## Decoding: a word of every row, written out from its pattern in R95 -/

theorem test_decode_control :
    decodeWord 0x00E0 = some .cls ∧ decodeWord 0x00EE = some .ret ∧ decodeWord 0x1ABC = some (.jp 0xABC) ∧
    decodeWord 0x2DEF = some (.call 0xDEF) ∧ decodeWord 0x3A42 = some (.seImm 0xA 0x42) ∧
    decodeWord 0x4B17 = some (.sneImm 0xB 0x17) ∧ decodeWord 0x5C30 = some (.seReg 0xC 0x3) ∧
    decodeWord 0x9D40 = some (.sneReg 0xD 0x4) ∧ decodeWord 0xB987 = some (.jpV0 0x987) := by decide
theorem test_decode_moves :
    decodeWord 0x6A7F = some (.ldImm 0xA 0x7F) ∧ decodeWord 0x7B01 = some (.addImm 0xB 0x01) ∧
    decodeWord 0xCA0F = some (.rnd 0xA 0x0F) ∧ decodeWord 0xA123 = some (.ldI 0x123) ∧
    decodeWord 0xD125 = some (.drw 0x1 0x2 0x5) := by decide
theorem test_decode_family8 :
    decodeWord 0x8AB0 = some (.ldReg 0xA 0xB) ∧ decodeWord 0x8AB1 = some (.orReg 0xA 0xB) ∧
    decodeWord 0x8AB2 = some (.andReg 0xA 0xB) ∧ decodeWord 0x8AB3 = some (.xorReg 0xA 0xB) ∧
    decodeWord 0x8AB4 = some (.addReg 0xA 0xB) ∧ decodeWord 0x8AB5 = some (.subReg 0xA 0xB) ∧
    decodeWord 0x8AB6 = some (.shr 0xA 0xB) ∧ decodeWord 0x8AB7 = some (.subnReg 0xA 0xB) ∧
    decodeWord 0x8ABE = some (.shl 0xA 0xB) := by decide
theorem test_decode_familiesEF :
    decodeWord 0xEA9E = some (.skp 0xA) ∧ decodeWord 0xEBA1 = some (.sknp 0xB) ∧
    decodeWord 0xF107 = some (.ldVxDT 0x1) ∧ decodeWord 0xF20A = some (.ldVxK 0x2) ∧
    decodeWord 0xF315 = some (.ldDTVx 0x3) ∧ decodeWord 0xF418 = some (.ldSTVx 0x4) ∧
    decodeWord 0xF51E = some (.addI 0x5) ∧ decodeWord 0xF629 = some (.ldF 0x6) ∧
    decodeWord 0xF733 = some (.ldB 0x7) ∧ decodeWord 0xF855 = some (.ldMemVx 0x8) ∧
    decodeWord 0xF965 = some (.ldVxMem 0x9) := by decide
/-- The words of part 2.1 that are not instructions. -/
theorem test_decode_unsupported :
    [0x0000, 0x00E1, 0x0123, 0x5AB1, 0x8AB8, 0x8ABF, 0x9AB1, 0xEA9F, 0xFA00, 0xFA75, 0xFFFF].map decodeWord =
      List.replicate 11 none := by decide
theorem test_decode_bytes :
    decode [0x6A, 0x7F, 0x12] = .ok (.ldImm 0xA 0x7F, [0x12]) ∧ decode [0x00, 0x00] = .error (.unsupported 0x0000) ∧
    decode [0x6A] = .error .truncated ∧ decode [] = .error .truncated := by decide
theorem test_encode : encode (.drw 0x1 0x2 0x5) = [0xD1, 0x25] ∧ encode (.skp 0xA) = [0xEA, 0x9E] ∧
    encode (.call 0xABC) = [0x2A, 0xBC] := by decide
/-- Numbered as spec/opcode_table.json numbers the bits. -/
theorem test_decodeTableWord :
    decodeTableWord 16 0x6A7F = some (.ldImm 0xA 0x7F) ∧ decodeTableWord 16 0x0000 = none := by decide
/-- The lines of R99 and of the listings P1 and P2; 0x8AB6 with its ignored field (R99). -/
theorem test_asmLine :
    asmLine (.ldImm 0x0 0x05) = "LD V0, 0x05" ∧ asmLine (.jp 0x20C) = "JP 0x20C" ∧
    asmLine (.ldVxMem 0x2) = "LD V2, [I]" ∧ asmLine (.shr 0xA 0x0) = "SHR VA" ∧
    asmLine (.shr 0xA 0xB) = "SHR VA, VB" := by decide

/-! ## Control flow (part 2.2) -/

theorem test_ret :
    after { boot 0x00EE with sp := 1, stack := State.reset.stack.set 0 0x0204 } (fun t => (t.pc, t.sp)) =
      some (0x0206, 0) := by decide
theorem test_ret_underflow : faultOf (boot 0x00EE) = some (.stackUnderflow 0x00EE 0x0200) := by decide
theorem test_jp : after (boot 0x1ABC) (fun t => t.pc) = some 0x0ABC := by decide
theorem test_call : after (boot 0x2ABC) (fun t => (t.pc, t.sp, t.stack[0])) = some (0x0ABC, 1, 0x0200) := by decide
theorem test_call_full :
    after { boot 0x2300 with sp := 15 } (fun t => (t.sp, t.stack[15])) = some (16, 0x0200) ∧
    faultOf { boot 0x2300 with sp := 16 } = some (.stackOverflow 0x2300 0x0200) := by decide
theorem test_seImm :
    after ((boot 0x3A42).setV 0xA 0x42) (fun t => t.pc) = some 0x0204 ∧
    after ((boot 0x3A42).setV 0xA 0x41) (fun t => t.pc) = some 0x0202 := by decide
theorem test_sneImm :
    after ((boot 0x4A42).setV 0xA 0x42) (fun t => t.pc) = some 0x0202 ∧
    after ((boot 0x4A42).setV 0xA 0x41) (fun t => t.pc) = some 0x0204 := by decide
theorem test_seReg :
    after (((boot 0x5AB0).setV 0xA 7).setV 0xB 7) (fun t => t.pc) = some 0x0204 ∧
    after (((boot 0x5AB0).setV 0xA 7).setV 0xB 8) (fun t => t.pc) = some 0x0202 := by decide
theorem test_sneReg :
    after (((boot 0x9AB0).setV 0xA 7).setV 0xB 8) (fun t => t.pc) = some 0x0204 ∧
    after (((boot 0x9AB0).setV 0xA 7).setV 0xB 7) (fun t => t.pc) = some 0x0202 := by decide
theorem test_jpV0 : after ((boot 0xBFFF).setV 0 0xFF) (fun t => t.pc) = some 0x10FE := by decide
/-- `pc` = 0xFFFE: fetched from bytes 0xFFE, 0xFFF; the skip wraps modulo 65536. -/
theorem test_pc_wraps :
    after (({ State.reset with pc := 0xFFFE }.withFetchWord 16 0x3A00).supply ⟨0, 0, true⟩) (fun t => t.pc) =
      some 0x0002 := by decide
theorem test_odd_pc :
    after (({ State.reset with pc := 0x0201 }.withFetchWord 16 0x6A01).supply ⟨0, 0, true⟩)
      (fun t => (t.getV 0xA, t.pc)) = some (1, 0x0203) := by decide

/-! ## Moves, logic, arithmetic (parts 2.3 and 2.4, E1 to E3) -/

theorem test_ldImm : after (boot 0x6A7F) (fun t => (t.getV 0xA, t.pc)) = some (0x7F, 0x0202) := by decide
theorem test_addImm :
    after ((boot 0x7A01).setV 0xA 0xFF) (fun t => (t.getV 0xA, t.getV 0xF)) = some (0, 0) := by decide
theorem test_ldReg : after ((boot 0x8AB0).setV 0xB 0x33) (fun t => t.getV 0xA) = some 0x33 := by decide
theorem test_orReg :
    after ((((boot 0x8AB1).setV 0xA 0xF0).setV 0xB 0x0F).setV 0xF 1) (fun t => (t.getV 0xA, t.getV 0xF)) =
      some (0xFF, 1) := by decide
theorem test_andReg :
    after ((((boot 0x8AB2).setV 0xA 0xF3).setV 0xB 0x3F).setV 0xF 1) (fun t => (t.getV 0xA, t.getV 0xF)) =
      some (0x33, 1) := by decide
theorem test_xorReg :
    after ((((boot 0x8AB3).setV 0xA 0xFF).setV 0xB 0x0F).setV 0xF 1) (fun t => (t.getV 0xA, t.getV 0xF)) =
      some (0xF0, 1) := by decide
/-- E2. -/
theorem test_addReg :
    after (((boot 0x8AB4).setV 0xA 250).setV 0xB 10) (fun t => (t.getV 0xA, t.getV 0xF)) = some (4, 1) ∧
    after ((((boot 0x8AB4).setV 0xA 10).setV 0xB 20).setV 0xF 1) (fun t => (t.getV 0xA, t.getV 0xF)) =
      some (30, 0) := by decide
/-- VF as destination and as operand. -/
theorem test_addReg_vf :
    after (((boot 0x8FB4).setV 0xF 0xFF).setV 0xB 1) (fun t => t.getV 0xF) = some 0 ∧
    after (((boot 0x8AF4).setV 0xA 1).setV 0xF 0xFF) (fun t => (t.getV 0xA, t.getV 0xF)) = some (0, 1) := by decide
/-- E3. -/
theorem test_subReg :
    after ((((boot 0x8AB5).setV 0xA 5).setV 0xB 10).setV 0xF 1) (fun t => (t.getV 0xA, t.getV 0xF)) = some (251, 0) ∧
    after (((boot 0x8AB5).setV 0xA 10).setV 0xB 5) (fun t => (t.getV 0xA, t.getV 0xF)) = some (5, 1) := by decide
theorem test_subReg_vf :
    after (((boot 0x8FB5).setV 0xF 5).setV 0xB 3) (fun t => t.getV 0xF) = some 2 ∧
    after (((boot 0x8AF5).setV 0xA 5).setV 0xF 9) (fun t => (t.getV 0xA, t.getV 0xF)) = some (0xFC, 0) := by decide
theorem test_shr :
    after (((boot 0x8AB6).setV 0xA 0x81).setV 0xB 0x77) (fun t => (t.getV 0xA, t.getV 0xF, t.getV 0xB)) =
      some (0x40, 1, 0x77) ∧
    after ((boot 0x8FB6).setV 0xF 0x03) (fun t => t.getV 0xF) = some 1 := by decide
theorem test_subnReg :
    after (((boot 0x8AB7).setV 0xA 5).setV 0xB 10) (fun t => (t.getV 0xA, t.getV 0xF)) = some (5, 1) ∧
    after ((((boot 0x8AB7).setV 0xA 10).setV 0xB 5).setV 0xF 1) (fun t => (t.getV 0xA, t.getV 0xF)) =
      some (251, 0) := by decide
theorem test_shl :
    after (((boot 0x8ABE).setV 0xA 0x81).setV 0xB 0x77) (fun t => (t.getV 0xA, t.getV 0xF, t.getV 0xB)) =
      some (0x02, 1, 0x77) ∧
    after ((boot 0x8FBE).setV 0xF 0x81) (fun t => t.getV 0xF) = some 2 := by decide
theorem test_rnd :
    after (boot 0xCA0F (rand := 0xA7)) (fun t => t.getV 0xA) = some 0x07 ∧
    after (boot 0xCAFF (rand := 0x3C)) (fun t => t.getV 0xA) = some 0x3C := by decide

/-! ## Index and memory (part 2.5) -/

theorem test_ldI : after ((boot 0xAFFF).setI 0xFFFF) (fun t => t.i) = some 0x0FFF := by decide
theorem test_addI :
    after (((boot 0xFA1E).setI 0x0FFF).setV 0xA 1) (fun t => (t.i, t.getV 0xF)) = some (0x1000, 0) ∧
    after (((boot 0xFA1E).setI 0xFFFF).setV 0xA 1) (fun t => t.i) = some 0 := by decide
theorem test_ldF :
    after ((boot 0xFA29).setV 0xA 0x0A) (fun t => t.i) = some 0x0032 ∧
    after ((boot 0xFA29).setV 0xA 0xFF) (fun t => t.i) = some 0x04FB := by decide
theorem test_ldB :
    after (((boot 0xFA33).setV 0xA 234).setI 0x0300)
      (fun t => (t.memRead 0x300, t.memRead 0x301, t.memRead 0x302, t.i)) = some (2, 3, 4, 0x0300) := by decide
theorem test_ldB_wraps :
    after (((boot 0xFA33).setV 0xA 199).setI 0x0FFE)
      (fun t => (t.memRead 0xFFE, t.memRead 0xFFF, t.memRead 0x000)) = some (1, 9, 9) := by decide
theorem test_ldMemVx :
    after (((((boot 0xF255).setV 0 0x11).setV 1 0x22).setV 2 0x33).setV 3 0x44 |>.setI 0x0400)
      (fun t => ([0x400, 0x401, 0x402, 0x403].map t.memRead, t.i)) = some ([0x11, 0x22, 0x33, 0], 0x0403) := by decide
theorem test_ldMemVx_wraps :
    after (((boot 0xF155).setV 0 0xAA).setV 1 0xBB |>.setI 0x0FFF)
      (fun t => (t.memRead 0xFFF, t.memRead 0x000, t.i)) = some (0xAA, 0xBB, 0x1001) := by decide
theorem test_ldVxMem :
    after (((boot 0xF265).storeBytes 0x300 [2, 3, 4, 5]).setV 3 0x77 |>.setI 0x0300)
      (fun t => ([0, 1, 2, 3].map t.getV, t.i)) = some ([2, 3, 4, 0x77], 0x0303) := by decide
theorem test_ldVxMem_all :
    after (((boot 0xFF65).storeBytes 0x400 [0xB0, 0xB1, 0xB2, 0xB3, 0xB4, 0xB5, 0xB6, 0xB7, 0xB8, 0xB9, 0xBA, 0xBB,
      0xBC, 0xBD, 0xBE, 0xBF]).setI 0x0400) (fun t => (t.getV 0, t.getV 7, t.getV 0xF, t.i)) =
      some (0xB0, 0xB7, 0xBF, 0x0410) := by decide

/-! ## Display (part 2.6, E5, E6) -/

theorem test_cls :
    after { boot 0x00E0 with disp := cells [(0, 0), (5, 7), (63, 31)], redraw := false }
      (fun t => (t.disp, t.redraw)) = some (blankDisplay, true) := by decide
/-- E6: wrapping on both axes. -/
theorem test_drw_wraps :
    after ((((boot 0xD012).storeBytes 0x300 [0xFF, 0xFF]).setI 0x0300).setV 0 63 |>.setV 1 31)
      (fun t => (t.disp, t.getV 0xF)) =
      some (cells [(63, 31), (0, 31), (1, 31), (2, 31), (3, 31), (4, 31), (5, 31), (6, 31),
        (63, 0), (0, 0), (1, 0), (2, 0), (3, 0), (4, 0), (5, 0), (6, 0)], 0) := by decide
/-- A collision, and a coordinate in VF read before VF is cleared. -/
theorem test_drw_collides :
    after { ((boot 0xD011).storeBytes 0x300 [0xFF]).setI 0x0300 |>.setV 0 10 |>.setV 1 5 with
      disp := cells [(12, 5)] } (fun t => (t.disp, t.getV 0xF)) =
      some (cells [(10, 5), (11, 5), (13, 5), (14, 5), (15, 5), (16, 5), (17, 5)], 1) ∧
    after (((boot 0xDF11).storeBytes 0x300 [0x80]).setI 0x0300 |>.setV 0xF 9 |>.setV 1 2)
      (fun t => (t.disp, t.getV 0xF)) = some (cells [(9, 2)], 0) := by decide

/-! ## Keypad and timers (parts 2.7 and 2.8) -/

theorem test_skp :
    after ((boot 0xEA9E (key := 0x0020)).setV 0xA 0x15) (fun t => t.pc) = some 0x0204 ∧
    after ((boot 0xEA9E (key := 0xFFDF)).setV 0xA 5) (fun t => t.pc) = some 0x0202 := by decide
theorem test_sknp :
    after ((boot 0xEAA1).setV 0xA 5) (fun t => t.pc) = some 0x0204 ∧
    after ((boot 0xEAA1 (key := 0x8000)).setV 0xA 0xFF) (fun t => t.pc) = some 0x0202 := by decide
theorem test_ldVxK :
    after (boot 0xFA0A (key := 0x0084)) (fun t => (t.getV 0xA, t.pc, t.out.waitingForKey)) =
      some (2, 0x0202, false) := by decide
theorem test_ldVxK_waits :
    after { boot 0xFA0A with dt := 5, st := 1 }
      (fun t => (t.pc, t.dt, t.st, t.out.waitingForKey, t.out.soundTrigger)) =
      some (0x0200, 4, 0, true, true) := by decide
theorem test_ldVxDT :
    after { boot 0xFA07 with dt := 0x2A } (fun t => (t.getV 0xA, t.dt)) = some (0x2A, 0x29) ∧
    after { boot 0xFA07 (tick := false) with dt := 0x2A } (fun t => (t.getV 0xA, t.dt)) = some (0x2A, 0x2A) := by
  decide
theorem test_ldDTVx :
    after ((boot 0xFA15).setV 0xA 3) (fun t => t.dt) = some 2 ∧
    after ((boot 0xFA15 (tick := false)).setV 0xA 3) (fun t => t.dt) = some 3 := by decide
theorem test_ldSTVx :
    after ((boot 0xFA18).setV 0xA 1) (fun t => (t.st, t.out.soundTrigger)) = some (0, true) ∧
    after { (boot 0xFA18).setV 0xA 0 with st := 5 } (fun t => (t.st, t.out.soundTrigger)) = some (0, false) := by
  decide
/-- E7 (a), with the next cycle. -/
theorem test_sound_trigger_once :
    after { boot 0x8000 with st := 1 } (fun t => (t.st, t.out.soundTrigger)) = some (0, true) ∧
    after (boot 0x8000) (fun t => (t.st, t.out.soundTrigger)) = some (0, false) := by decide

/-! ## Faulting cycles, reset and the host (parts 2.1 and 2.9, P7) -/

theorem test_unsupported_cycle :
    faultOf { boot 0x5AB1 with dt := 4, st := 1 } = some (.unsupportedOpcode 0x5AB1 0x0200) ∧
    afterCycle { boot 0x5AB1 with dt := 4, st := 1 }
      (fun t => (t.pc, t.dt, t.st, t.out.fault, t.out.soundTrigger)) =
      some (0x0200, 3, 0, some (.unsupportedOpcode 0x5AB1 0x0200), true) := by decide
theorem test_run_from_reset_faults : faultOf State.reset = some (.unsupportedOpcode 0x0000 0x0200) := by decide
theorem test_load_then_run :
    (match State.reset.loadProgram [0x6A, 0x01, 0x7A, 0x01] with
      | .next s => after (s.supply ⟨0, 0, true⟩) (fun t => (t.getV 0xA, t.pc))
      | _ => none) = some (1, 0x0202) := by decide
/-- R5, R292 with a font other than the default: its bytes stand at 0x000 to 0x04F, and a Reset puts them back. -/
theorem test_other_font :
    after (((State.resetWith (Vector.replicate 80 0xAA)).withFetchWord 16 0xF165).setI 0x004F)
      (fun t => (t.getV 0, t.getV 1, t.i)) = some (0xAA, 0x00, 0x0051) ∧
    (match hostMove .reset ((State.resetWith (Vector.replicate 80 0xAA)).memWrite 0x0000 0x55) with
      | .next t => some (t.memRead 0x0000, t.memRead 0x0050)
      | _ => none) = some (0xAA, 0x00) := by decide
/-- Part 2.5: 0xF465 with I = 0 and the default font. -/
theorem test_default_font :
    after (boot 0xF465) (fun t => [t.getV 0, t.getV 1, t.getV 2, t.getV 3, t.getV 4]) =
      some [0xF0, 0x90, 0x90, 0x90, 0xF0] := by decide
theorem test_loadByte_bounds :
    (hostMove (.loadByte 0x1FF 1) State.reset matches .refused _) = true ∧
    (hostMove (.loadByte 0x200 1) State.reset matches .next _) = true ∧
    (hostMove (.loadByte 0xFFF 1) State.reset matches .next _) = true ∧
    (hostMove (.loadByte 0x1000 1) State.reset matches .refused _) = true := by decide

/-! ## Witnesses: for every statement with hypotheses, states and operands that meet them, at the boundary of each clause -/

/-- A state with the word `w` at `pc`, `sp` = `k`. -/
def withSp (w : Nat) (k : Fin 17) : State := { boot w with sp := k }

theorem witness_EncodeOfDecodeIsIdentity :
    decodeWord 0x0000 = none ∧ decodeWord 0x1000 = some (.jp 0x000) ∧ decodeWord 0xFF65 = some (.ldVxMem 0xF) := by
  decide
theorem witness_DecoderFollowsOpcodeTable :
    (⟨"SHR_Vx", 0xF00F, 0x8006⟩ : OpcodeRow) ∈ opcodeTable ∧
    (⟨"SHR_Vx", 0xF00F, 0x8006⟩ : OpcodeRow).accepts 0x8AB6 = true ∧ decodeWord 0x8AB6 = some (.shr 0xA 0xB) ∧
    mnemonicOf (.shr 0xA 0xB) = "SHR_Vx" := by decide
/-- R66: at the top of memory the low byte comes from address 0; the default font has 0xF0 there. -/
theorem witness_FetchIsBigEndianAndWraps :
    ({ State.reset with pc := 0x0FFF } : State).fetchWord = 0x00F0 ∧
    ({ State.reset with pc := 0xFFFF } : State).fetchWord = 0x00F0 := by decide
theorem witness_StepRunsDecodedInstruction_next :
    decode [(boot 0x6A7F).memRead (boot 0x6A7F).pc, (boot 0x6A7F).memRead ((boot 0x6A7F).pc + 1)] =
      .ok (.ldImm 0xA 0x7F, []) ∧
    ∃ t, exec (.ldImm 0xA 0x7F) (boot 0x6A7F).beginCycle = .next t := ⟨by decide, _, rfl⟩
theorem witness_StepRunsDecodedInstruction_fault :
    decode [(boot 0x00EE).memRead (boot 0x00EE).pc, (boot 0x00EE).memRead ((boot 0x00EE).pc + 1)] = .ok (.ret, []) ∧
    exec .ret (boot 0x00EE).beginCycle = .fault (.stackUnderflow 0x00EE 0x0200) := ⟨by decide, rfl⟩
theorem witness_OnlyThreeFaultsExist :
    decodeWord (boot 0x5AB1).fetchWord = none ∧ decodeWord (withSp 0x2300 16).fetchWord = some (.call 0x300) ∧
    (withSp 0x2300 16).sp.val = 16 ∧ decodeWord (boot 0x00EE).fetchWord = some .ret ∧ (boot 0x00EE).sp.val = 0 := by
  decide
theorem witness_SafeCycle : SafeCycle (withSp 0x2300 15) ∧ ¬ SafeCycle (withSp 0x2300 16) := by
  constructor
  · intro f h
    have : faultOf (withSp 0x2300 15) = some f := by simp only [faultOf, h]
    rw [show faultOf (withSp 0x2300 15) = none by decide] at this
    cases this
  · intro h
    exact h (.stackOverflow 0x2300 0x0200) (by rfl)
theorem witness_UnsupportedWordIsReported : ∀ r ∈ opcodeTable, r.accepts (boot 0x5AB1).fetchWord = false := by decide
/-- Also the hypotheses of FaultRepeatsEveryCycle; with the tick at 1 and at 0, and ST = 1 for the trigger. -/
theorem witness_FaultingCycleChangesOnlyTimers :
    step { boot 0x0000 with st := 1 } = .fault (.unsupportedOpcode 0x0000 0x0200) ∧
    ({ boot 0x0000 with st := 1 } : State).input.timerTick = true ∧
    step (boot 0x0000 (tick := false)) = .fault (.unsupportedOpcode 0x0000 0x0200) ∧
    (boot 0x0000 (tick := false)).input.timerTick = false ∧ ∃ u, cycle { boot 0x0000 with st := 1 } = .next u :=
  ⟨rfl, rfl, rfl, rfl, _, rfl⟩
theorem witness_TimersTickAfterInstruction :
    (∃ t u, attempt (boot 0x6A7F).beginCycle = .next t ∧ cycle (boot 0x6A7F) = .next u) ∧
    (boot 0x6A7F).input.timerTick = true ∧
    (∃ t u, attempt (boot 0x6A7F (tick := false)).beginCycle = .next t ∧
      cycle (boot 0x6A7F (tick := false)) = .next u) ∧ (boot 0x6A7F (tick := false)).input.timerTick = false :=
  ⟨⟨_, _, rfl, rfl⟩, rfl, ⟨_, _, rfl, rfl⟩, rfl⟩
theorem witness_TimerAccessPrecedesTick :
    (boot 0xFA07).input.timerTick = true ∧ decodeWord (boot 0xFA07).fetchWord = some (.ldVxDT 0xA) ∧
    decodeWord (boot 0xFA15).fetchWord = some (.ldDTVx 0xA) ∧
    decodeWord (boot 0xFA18).fetchWord = some (.ldSTVx 0xA) := by decide
theorem witness_BlockedCycleOnlyTicks :
    decodeWord (boot 0xFF0A).fetchWord = some (.ldVxK 0xF) ∧ (boot 0xFF0A).input.key = 0 ∧
    (boot 0xFF0A).input.timerTick = true ∧ (boot 0xFF0A (tick := false)).input.key = 0 ∧
    (boot 0xFF0A (tick := false)).input.timerTick = false := by decide
/-- 0x1200 at 0x0200 (part 2.2). -/
theorem witness_EndOfRunIsStable : EndOfRun (boot 0x1200) := ⟨0x200, by decide, by decide⟩
/-- 0x1000 is address 0x000; 0x0FFF is not. -/
theorem witness_MemoryReadSeesLatestWrite :
    (boot 0x6A7F).memWf ∧ (0x1000 : Word).toNat % 4096 = (0x0000 : Word).toNat % 4096 ∧
    (0x0FFF : Word).toNat % 4096 ≠ (0x1000 : Word).toNat % 4096 := by decide
/-- The last two registers, stored across the top of memory. -/
theorem witness_StoredRegistersAreFetched :
    ((boot 0xFF55).setI 0x0FF1).memWf ∧ 14 < (0xF : Nibble).toNat ∧
    (∃ t, exec (.ldMemVx 0xF) ((boot 0xFF55).setI 0x0FF1) = .next t) ∧
    (0x1FFF : Word).toNat % 4096 = (((boot 0xFF55).setI 0x0FF1).i.toNat + 14) % 4096 :=
  ⟨by decide, by decide, ⟨_, rfl⟩, by decide⟩
theorem witness_ResetStateIsAsStated :
    State.reset = State.resetWith Config.defaultFont ∧ (0x004F : Word).toNat < 80 ∧ 80 ≤ (0x0050 : Word).toNat ∧
    (0x0FFF : Word).toNat < 4096 := ⟨rfl, by decide, by decide, by decide⟩
theorem witness_HostMovesBetweenCycles :
    State.reset.env.started = false ∧ (0x200 ≤ (0x200 : Word).toNat ∧ (0x200 : Word).toNat ≤ 0xFFF) ∧
    (0x200 ≤ (0xFFF : Word).toNat ∧ (0xFFF : Word).toNat ≤ 0xFFF) ∧ (0x1FF : Word).toNat < 0x200 ∧
    0xFFF < (0x1000 : Word).toNat ∧ ({ State.reset with env := ⟨[], 1, true⟩ } : State).env.started = true := by decide
theorem witness_HostMovesBetweenCycles_cycle : ∃ u, step (boot 0x6A7F) = .next u := ⟨_, rfl⟩
theorem witness_ProgramLoadsFromProgramBase :
    State.reset.memWf ∧ State.reset.env.started = false ∧ (List.replicate 3584 (0 : Byte)).length ≤ 3584 ∧
    3584 < (List.replicate 3585 (0 : Byte)).length ∧ ((0x1FF : Word).toNat % 4096 < 0x200) ∧
    0x200 + [0x12, 0x00].length ≤ (0x202 : Word).toNat % 4096 :=
  ⟨by decide, by decide, by simp, by simp, by decide, by decide⟩
/-- The invariant of a state whose last cycle waited with ST run out, and a step from it. -/
theorem witness_StepKeepsInvariant :
    ({ boot 0xF10A with out := ⟨true, true, none⟩, env := ⟨[⟨0, 0, true⟩], 1, true⟩ } : State).Inv ∧
    ∃ u, step { boot 0xF10A with out := ⟨true, true, none⟩, env := ⟨[⟨0, 0, true⟩], 1, true⟩ } = .next u :=
  ⟨⟨by decide, fun _ => rfl, fun _ => ⟨rfl, 0x1, by decide⟩, nofun⟩, _, rfl⟩
/-- The invariant of a state whose last cycle faulted, and the cycle that faults again. -/
theorem witness_HostMovesKeepInvariant :
    ({ boot 0x0000 with
      out := ⟨false, false, some (.unsupportedOpcode 0x0000 0x0200)⟩, env := ⟨[], 1, true⟩ } : State).Inv ∧
    ∃ t, hostMove (.cycle ⟨0, 0, true⟩) { boot 0x0000 with
      out := ⟨false, false, some (.unsupportedOpcode 0x0000 0x0200)⟩, env := ⟨[], 1, true⟩ } = .next t :=
  ⟨⟨by decide, nofun, nofun, fun f h => by cases h; exact ⟨rfl, rfl⟩⟩, _, rfl⟩
/-- Also the hypothesis of CallThenReturnRoundTrip. -/
theorem witness_CallPushesItsAddress :
    (withSp 0x2300 0).sp.val < 16 ∧ (withSp 0x2300 15).sp.val < 16 ∧ (withSp 0x2300 16).sp.val = 16 ∧
    decodeWord (withSp 0x2300 16).fetchWord = some (.call 0x300) := by decide
theorem witness_ReturnPopsAndAddsTwo :
    0 < (withSp 0x00EE 1).sp.val ∧ 0 < (withSp 0x00EE 16).sp.val ∧ (withSp 0x00EE 0).sp.val = 0 ∧
    decodeWord (withSp 0x00EE 0).fetchWord = some .ret := by decide
theorem witness_SkipsOnComparison :
    (boot 0x3A00).getV 0xA = 0 ∧ (boot 0x3A00).getV 0xA ≠ 0x42 ∧ (boot 0x5AA0).getV 0xA = (boot 0x5AA0).getV 0xA ∧
    ((boot 0x5AB0).setV 0xA 7).getV 0xA ≠ ((boot 0x5AB0).setV 0xA 7).getV 0xB := by decide
theorem witness_SkipsOnKey :
    (boot 0xEA9E (key := 0x8000)).input.key.getLsbD ((((boot 0xEA9E).setV 0xA 0xFF).getV 0xA).toNat % 16) = true ∧
    (boot 0xEA9E (key := 0x7FFF)).input.key.getLsbD ((((boot 0xEA9E).setV 0xA 0xFF).getV 0xA).toNat % 16) = false := by
  decide
theorem witness_ProgramCounterPolicy :
    (∃ t, exec (.jp 0x200) (boot 0x1200) = .next t) ∧ (∃ t, exec .ret (withSp 0x00EE 16) = .next t) ∧
    (∃ t, exec (.ldVxK 0xF) (boot 0xFF0A) = .next t) ∧
    (∃ t, exec (.ldVxK 0xF) (boot 0xFF0A (key := 1)) = .next t) ∧
    step (boot 0x0000) = .fault (.unsupportedOpcode 0x0000 0x0200) ∧ ∃ u, cycle (boot 0x0000) = .next u :=
  ⟨⟨_, rfl⟩, ⟨_, rfl⟩, ⟨_, rfl⟩, ⟨_, rfl⟩, rfl, _, rfl⟩
theorem witness_ProgramCounterPolicy_step :
    decodeWord (withSp 0x00EE 1).fetchWord = some .ret ∧ (∃ u, step (withSp 0x00EE 1) = .next u) ∧
    decodeWord (boot 0xFF0A).fetchWord = some (.ldVxK 0xF) ∧ ∃ u, step (boot 0xFF0A) = .next u :=
  ⟨by decide, ⟨_, rfl⟩, by decide, _, rfl⟩
theorem witness_FlagRegisterRule :
    (∃ t, exec (.addReg 0xE 0xF) (boot 0x8EF4) = .next t) ∧ namesDestination 0xF (.addReg 0xE 0xF) = false ∧
    writesFlag (.addReg 0xE 0xF) = true ∧ (∃ t, exec (.ldVxMem 0xE) (boot 0xFE65) = .next t) ∧
    namesDestination 0xF (.ldVxMem 0xE) = false ∧ writesFlag (.ldVxMem 0xE) = false ∧
    namesDestination 0xF (.ldVxMem 0xF) = true := ⟨⟨_, rfl⟩, rfl, rfl, ⟨_, rfl⟩, by decide, rfl, by decide⟩
theorem witness_ArithmeticWritesFlagThenResult : (0xE : Nibble) ≠ 0xF ∧ (0xE : Nibble) ≠ 0x0 := by decide
/-- The digits across the top of memory: 0x1FFE, 0x1FFF and 0x2000 are written, 0x0FFD and 0x0001 are not. -/
theorem witness_StoreBcdWritesThreeDigits :
    ((boot 0xFA33).setI 0x1FFE).memWf ∧
    (∀ k < 3, lineOf 0x0FFD ≠ lineOf (((boot 0xFA33).setI 0x1FFE).effAddr k)) ∧
    (∀ k < 3, lineOf 0x0001 ≠ lineOf (((boot 0xFA33).setI 0x1FFE).effAddr k)) := by decide
/-- Also the hypotheses of StoreThenLoadRestoresRegisters. -/
theorem witness_StoreRegistersWritesRun :
    ((boot 0xFF55).setI 0x0FF8).memWf ∧ (0xF : Nibble) ≤ 0xF ∧
    (∀ k : Nibble, k ≤ 0xF → lineOf 0x0008 ≠ lineOf (((boot 0xFF55).setI 0x0FF8).effAddr k.toNat)) ∧
    ∃ t, exec (.ldMemVx 0xF) ((boot 0xFF55).setI 0x0FF8) = .next t := ⟨by decide, by decide, by decide, _, rfl⟩
theorem witness_LoadRegistersReadsRun : (0x0 : Nibble) ≤ 0x0 ∧ (0x0 : Nibble) < 0x1 ∧ (0xE : Nibble) < 0xF := by decide
/-- One set sprite bit in the corner (63, 31): on a set cell, and on a blank display. -/
theorem witness_DrawXorsSpriteAndReportsCollision :
    (∃ yy xx, ((({ boot 0xD011 with disp := cells [(63, 31)] } : State).storeBytes 0x300 [0x80]).setI
        0x0300).spriteBit 63 31 1 yy xx = true ∧ (cells [(63, 31)]).get yy xx = true) ∧
    ∀ yy xx, (((boot 0xD011).storeBytes 0x300 [0x80]).setI 0x0300).spriteBit 63 31 1 yy xx = true →
      (boot 0xD011).disp.get yy xx = false :=
  ⟨⟨31, 63, by decide, by decide⟩, fun yy xx _ => blankDisplay_get yy xx⟩
theorem witness_DrawTwiceRestoresDisplay : (0xE : Nibble) ≠ 0xF ∧ (0x0 : Nibble) ≠ 0xF := by decide
theorem witness_WaitForKeyTakesLowestKey :
    (boot 0xFA0A).input.key = 0 ∧ (boot 0xFA0A (key := 0x8000)).input.key ≠ 0 ∧
    (boot 0xFA0A (key := 0xFFFF)).input.key ≠ 0 := by decide
theorem witness_OnlyNamedInstructionsWrite :
    (∃ t, exec (.ldVxMem 0xE) (boot 0xFE65) = .next t) ∧ writesMemory (.ldVxMem 0xE) = false ∧
    writesStackPointer (.ldVxMem 0xE) = false ∧ writesStackEntries .ret = false ∧
    (∃ t, exec .ret (withSp 0x00EE 16) = .next t) ∧ writesDisplay (.ldVxMem 0xE) = false ∧
    writesDelayTimer (.ldVxMem 0xE) = false ∧ writesSoundTimer (.ldVxMem 0xE) = false ∧
    namesDestination 0xF (.ldVxMem 0xE) = false ∧ (∃ t, exec (.jp 0x200) (boot 0x1200) = .next t) ∧
    writesIndex (.jp 0x200) = false := ⟨⟨_, rfl⟩, rfl, rfl, rfl, ⟨_, rfl⟩, rfl, rfl, rfl, by decide, ⟨_, rfl⟩, rfl⟩
theorem witness_InputsReachOnlyTheirReaders :
    (readsKeypad (.skp 0xA) = true → (⟨0x20, 1, true⟩ : CycleInput).key = (⟨0x20, 2, false⟩ : CycleInput).key) ∧
    (readsRandom (.skp 0xA) = true → (⟨0x20, 1, true⟩ : CycleInput).rand = (⟨0x20, 2, false⟩ : CycleInput).rand) ∧
    (readsKeypad (.rnd 0xA 1) = true → (⟨0x20, 1, true⟩ : CycleInput).key = (⟨0x21, 1, false⟩ : CycleInput).key) ∧
    (readsRandom (.rnd 0xA 1) = true → (⟨0x20, 1, true⟩ : CycleInput).rand = (⟨0x21, 1, false⟩ : CycleInput).rand) := by
  decide
theorem witness_HighIndexBitsNeverShow :
    DifferInHighIndex ((boot 0xFA33).setI 0x0300) ((boot 0xFA33).setI 0xF300) ∧
    (boot 0xFA33).setI 0x0300 ≠ (boot 0xFA33).setI 0xF300 := ⟨⟨rfl, by decide⟩, by decide⟩
theorem witness_StaleStackEntriesNeverShow :
    DifferInStaleStack (withSp 0x00EE 15) { withSp 0x00EE 15 with stack := State.reset.stack.set 15 0x0ABC } ∧
    withSp 0x00EE 15 ≠ { withSp 0x00EE 15 with stack := State.reset.stack.set 15 0x0ABC } :=
  ⟨⟨rfl, by decide⟩, by decide⟩
theorem witness_SoundTimerAndRedrawNeverShow :
    DifferInUnreadable (boot 0xF00A) { boot 0xF00A with st := 9, redraw := false } ∧
    boot 0xF00A ≠ { boot 0xF00A with st := 9, redraw := false } := ⟨rfl, by decide⟩

theorem witness_FontIsFixedAndResetRestoresIt :
    (∃ u, step (boot 0x6A7F) = .next u) ∧ (∃ u, cycle (boot 0x0000) = .next u) ∧
    (∃ u, hostMove (.loadByte 0x200 1) State.reset = .next u) ∧ (∃ u, hostMove .reset (boot 0x6A7F) = .next u) ∧
    (0x004F : Word).toNat < 80 := ⟨⟨_, rfl⟩, ⟨_, rfl⟩, ⟨_, rfl⟩, ⟨_, rfl⟩, by decide⟩
/-- Two fonts that differ in `FONT[0]`; the second machine has the byte of the first written there. -/
theorem witness_FontShowsOnlyThroughMemory :
    let t : State := (State.resetWith (Config.defaultFont.set 0 0x00)).memWrite 0x0000 0xF0
    State.reset.memWf ∧ t.memWf ∧ DifferInFont State.reset t ∧ t.font ≠ State.reset.font := by
  refine ⟨by decide, by decide, ⟨rfl, fun a => ?_⟩, by decide⟩
  rw [State.memRead_memWrite _ _ _ (State.memWf_resetWith _)]
  show _ = resetByte Config.defaultFont (lineOf a)
  split <;> rename_i h
  · rw [h]
    rfl
  · have h0 : 0 ≠ lineOf a := Ne.symm h
    simp only [State.memRead_resetWith, resetByte, Vector.getElem_set_ne _ _ h0]

end Sys2Proof.Machine.Test
end

/-! ## The word of a decoded instruction (spec 30_encoding.md R95, R96) -/

namespace Sys2Proof

theorem encodeWord_of_decodeFamily8 {x y n : Nibble} {i : Instr} (h : decodeFamily8 x y n = some i) :
    encodeWord i = wordXYN 0x8 x y n := by
  unfold decodeFamily8 at h
  split at h <;> cases h <;> rfl

theorem encodeWord_of_decodeFamilyE {x : Nibble} {nn : Byte} {i : Instr} (h : decodeFamilyE x nn = some i) :
    encodeWord i = wordXI 0xE x nn := by
  unfold decodeFamilyE at h
  split at h <;> cases h <;> rfl

theorem encodeWord_of_decodeFamilyF {x : Nibble} {nn : Byte} {i : Instr} (h : decodeFamilyF x nn = some i) :
    encodeWord i = wordXI 0xF x nn := by
  unfold decodeFamilyF at h
  split at h <;> cases h <;> rfl

/-- The family nibble and the fields put the word together again; the bits of a row that are in no field are those the
decoder has matched. -/
theorem encodeWord_of_decodeWord {w : Word} {i : Instr} (h : decodeWord w = some i) : encodeWord i = w := by
  have hA {fam} (hfam : fieldFam w = fam) : wordA fam (fieldNNN w) = w := hfam ▸ wordA_fields w
  have hXI {fam} (hfam : fieldFam w = fam) : wordXI fam (fieldX w) (fieldNN w) = w := hfam ▸ wordXI_fields w
  have hXYN {fam} (hfam : fieldFam w = fam) : wordXYN fam (fieldX w) (fieldY w) (fieldN w) = w :=
    hfam ▸ wordXYN_fields w
  unfold decodeWord at h
  split at h
  case h_1 =>
    split at h
    · cases h; exact Eq.symm ‹_›
    · split at h
      · cases h; exact Eq.symm ‹_›
      · cases h
  case h_2 hfam | h_3 hfam | h_11 hfam | h_12 hfam => cases h; exact hA hfam
  case h_4 hfam | h_5 hfam | h_7 hfam | h_8 hfam | h_13 hfam => cases h; exact hXI hfam
  case h_6 hfam | h_10 hfam =>
    split at h
    · rename_i hn
      cases h
      have hw := hXYN hfam
      rwa [hn] at hw
    · cases h
  case h_9 hfam => exact (encodeWord_of_decodeFamily8 h).trans (hXYN hfam)
  case h_14 hfam => cases h; exact hXYN hfam
  case h_15 hfam => exact (encodeWord_of_decodeFamilyE h).trans (hXI hfam)
  case h_16 hfam => exact (encodeWord_of_decodeFamilyF h).trans (hXI hfam)
  case h_17 => cases h

end Sys2Proof

/-! ## The faults of a step (spec 60_exceptions.md R250 to R255) -/

namespace Sys2Proof.Machine

theorem exec_call_of_full {s : State} (nnn : Addr12) (hsp : s.sp.val = 16) :
    exec (.call nnn) s = .fault (.stackOverflow (encodeWord (.call nnn)) s.pc) := by
  simp only [exec, execCall, State.push_eq_none.2 hsp, raise_eq]

theorem exec_ret_of_empty {s : State} (hsp : s.sp.val = 0) :
    exec .ret s = .fault (.stackUnderflow (encodeWord .ret) s.pc) := by
  simp only [exec, execRet, State.pop_eq_none.2 hsp, raise_eq]

theorem step_of_unsupported {s : State} (hw : decodeWord s.fetchWord = none) :
    step s = .fault (.unsupportedOpcode s.fetchWord s.pc) := by
  simp only [step, runCycle, attempt_of_unsupported (s := s.beginCycle) hw, State.fetchWord_beginCycle,
    State.beginCycle_pc]

theorem step_of_exec_fault {s : State} {i : Instr} {f : Fault} (hw : decodeWord s.fetchWord = some i)
    (he : exec i s.beginCycle = .fault f) : step s = .fault f := by
  rw [step_of_decode hw, he]

theorem safeCycle_iff (s : State) : SafeCycle s ↔ ∃ u, step s = .next u := by
  constructor
  · intro hsafe
    obtain ⟨u, hu, -⟩ | ⟨f, hf, -⟩ := cycle_eq s
    · exact ⟨u, hu⟩
    · exact absurd hf (hsafe f)
  · rintro ⟨u, hu⟩ f hf
    cases hu.symm.trans hf

theorem step_eq_fault_iff (s : State) (f : Fault) : step s = .fault f ↔
    (decodeWord s.fetchWord = none ∧ f = .unsupportedOpcode s.fetchWord s.pc) ∨
    (∃ nnn, decodeWord s.fetchWord = some (.call nnn) ∧ s.sp.val = 16 ∧ f = .stackOverflow s.fetchWord s.pc) ∨
    (decodeWord s.fetchWord = some .ret ∧ s.sp.val = 0 ∧ f = .stackUnderflow 0x00EE s.pc) := by
  constructor
  · intro h
    obtain hnone | ⟨i, hw, he⟩ := step_eq_fault h
    · exact .inl hnone
    · obtain ⟨nnn, rfl, hsp, rfl⟩ | ⟨rfl, hsp, rfl⟩ := exec_eq_fault he
      · exact .inr (.inl ⟨nnn, hw, hsp, by rw [encodeWord_of_decodeWord hw, State.beginCycle_pc]⟩)
      · exact .inr (.inr ⟨hw, hsp, rfl⟩)
  · rintro (⟨hw, rfl⟩ | ⟨nnn, hw, hsp, rfl⟩ | ⟨hw, hsp, rfl⟩)
    · exact step_of_unsupported hw
    · rw [← encodeWord_of_decodeWord hw]
      exact step_of_exec_fault hw (exec_call_of_full (s := s.beginCycle) nnn hsp)
    · exact step_of_exec_fault hw (exec_ret_of_empty (s := s.beginCycle) hsp)

/-- Settles O7: a refusal is excluded by `cycle_eq`, and a fault is the unsupported word's or the instruction's own. -/
theorem onlyThreeFaultsExist : Obligations.OnlyThreeFaultsExist :=
  fun s => ⟨safeCycle_iff s, step_eq_fault_iff s⟩

/-! ## The parameter FONT (spec 00_scope.md R5, 70_reset_and_hazards.md R290, R292) -/

theorem step_font {s u : State} (h : step s = .next u) : u.font = s.font := by
  obtain ⟨i, t, -, he, rfl⟩ := step_eq_next h
  rw [State.endCycle_font, exec_font he, State.beginCycle_font]

theorem cycle_font {s u : State} (h : cycle s = .next u) : u.font = s.font := by
  obtain ⟨t, hstep, hcycle⟩ | ⟨f, -, hcycle⟩ := cycle_eq s
  · cases hcycle.symm.trans h
    exact step_font hstep
  · cases hcycle.symm.trans h
    simp

/-- A LoadByte that is not refused is one write to memory (R36, R295). -/
theorem State.loadByte_eq_next {s u : State} {a : Word} {v : Byte} (h : s.loadByte a v = .next u) :
    u = s.memWrite a v := by
  unfold State.loadByte at h
  split at h
  · exact (Host.Outcome.next.inj h).symm
  · cases h

theorem hostMove_font {m : HostMove} {s u : State} (h : hostMove m s = .next u) : u.font = s.font := by
  cases m with
  | loadByte a v => rw [State.loadByte_eq_next h, State.memWrite_font]
  | cycle inp => rw [cycle_font h, State.supply_font]
  | reset | readDisplay | ackRedraw | observe => cases h; rfl

theorem State.memRead_runInitializer (s : State) (a : Word) :
    s.runInitializer.memRead a = resetByte s.font (lineOf a) := rfl

theorem lineOf_of_lt {a : Word} (h : a.toNat < 4096) : lineOf a = a.toNat := Nat.mod_eq_of_lt h

/-- Settles O49. -/
theorem fontIsFixedAndResetRestoresIt : Obligations.FontIsFixedAndResetRestoresIt := by
  intro s
  refine ⟨fun _ => step_font, fun _ => cycle_font, fun _ _ => hostMove_font, ?_⟩
  intro u hu a ha
  cases hu
  rw [State.memRead_runInitializer, lineOf_of_lt (by omega), resetByte_of_lt ha]

end Sys2Proof.Machine

/-! ## The invariant (spec 10_state.md R36, R37; 40_cycle_sequencer.md R126; 60_exceptions.md R258, R265) -/

namespace Sys2Proof.Machine

/-- A state whose pins are clear need only hold a canonical memory. -/
theorem State.inv_of_clear {s : State} (hmem : s.memWf) (hout : s.out = Outputs.clear) : s.Inv where
  mem := hmem
  sound := by simp [hout, Outputs.clear]
  waiting := by simp [hout, Outputs.clear]
  fault := by simp [hout, Outputs.clear]

theorem State.inv_resetWith (font : Config.Font) : (State.resetWith font).Inv :=
  State.inv_of_clear (State.memWf_resetWith font) rfl

/-- Settles O21. -/
theorem resetMeetsInvariant : Obligations.ResetMeetsInvariant :=
  ⟨State.inv_resetWith Config.defaultFont, State.inv_resetWith⟩

/-- The timer updater raises the sound trigger only as it takes ST from 1 to 0 (R265). -/
theorem State.st_endCycle_of_soundTrigger {t : State} (ht : t.out.soundTrigger = false)
    (h : t.endCycle.out.soundTrigger = true) : t.endCycle.st = 0 := by
  simp only [State.endCycle_out, ht, Bool.false_or, Bool.and_eq_true, beq_iff_eq] at h
  obtain ⟨hst, htick⟩ := h
  rw [State.endCycle_st, hst, htick]
  rfl

/-- Whether a step faults, and how, depends on the fetched word, `pc` and `sp` only. -/
theorem step_fault_congr {s t : State} {f : Fault} (h : step s = .fault f) (hword : t.fetchWord = s.fetchWord)
    (hpc : t.pc = s.pc) (hsp : t.sp = s.sp) : step t = .fault f := by
  rw [step_eq_fault_iff] at h ⊢
  rwa [hword, hpc, hsp]

/-- The end of a cycle whose instruction ran. It waits only where it was `LD Vx, K` that ran, which left memory and `pc`
alone. -/
theorem inv_endCycle_of_exec {s t : State} {i : Instr} (hmem : s.memWf) (hword : decodeWord s.fetchWord = some i)
    (he : exec i s.beginCycle = .next t) : t.endCycle.Inv := by
  have htmem : t.memWf := exec_mem_wf he hmem
  obtain hout | ⟨x, rfl, -, rfl⟩ := exec_out he
  · rw [State.beginCycle_out] at hout
    exact {
      mem := htmem
      sound := State.st_endCycle_of_soundTrigger (by rw [hout]; rfl)
      waiting := by simp [hout, Outputs.clear]
      fault := by simp [hout, Outputs.clear] }
  · exact {
      mem := htmem
      sound := State.st_endCycle_of_soundTrigger rfl
      waiting := fun _ => ⟨rfl, x, hword⟩
      fault := nofun }

/-- The end of a faulting cycle. It left the fetched word, `pc` and `sp` alone, so the next step faults alike (R258). -/
theorem inv_endCycle_of_fault {s : State} {f : Fault} (hmem : s.memWf) (hf : step s = .fault f) :
    (s.beginCycle.reportFault f).endCycle.Inv where
  mem := hmem
  sound := State.st_endCycle_of_soundTrigger rfl
  waiting := nofun
  fault := by
    rintro g ⟨⟩
    exact ⟨rfl, step_fault_congr hf rfl rfl rfl⟩

theorem step_inv {s u : State} (hmem : s.memWf) (h : step s = .next u) : u.Inv := by
  obtain ⟨i, t, hword, he, rfl⟩ := step_eq_next h
  exact inv_endCycle_of_exec hmem hword he

theorem cycle_inv {s u : State} (hmem : s.memWf) (h : cycle s = .next u) : u.Inv := by
  obtain ⟨t, hstep, hcycle⟩ | ⟨f, hf, hcycle⟩ := cycle_eq s
  · cases hcycle.symm.trans h
    exact step_inv hmem hstep
  · cases hcycle.symm.trans h
    exact inv_endCycle_of_fault hmem hf

/-- Settles O22: of the invariant before the step only the canonical memory is needed, since every cycle clears the pins. -/
theorem stepKeepsInvariant : Obligations.StepKeepsInvariant :=
  fun _ _ hs h => step_inv hs.mem h

theorem State.started_of_loadByte_eq_next {s u : State} {a : Word} {v : Byte} (h : s.loadByte a v = .next u) :
    s.env.started = false := by
  unfold State.loadByte at h
  split at h
  · rename_i hallowed
    exact hallowed.2.2
  · cases h

/-- Before the first cycle nothing waits and no fault is on the pins, so a write to memory can disturb neither. -/
theorem State.inv_memWrite {s : State} (a : Word) (v : Byte) (hs : s.Inv) (hstart : s.env.started = false) :
    (s.memWrite a v).Inv where
  mem := State.memWrite_wf a v hs.mem
  sound := hs.sound
  waiting hwait := by cases hstart.symm.trans (hs.waiting hwait).1
  fault f hf := by cases hstart.symm.trans (hs.fault f hf).1

theorem State.inv_ackRedraw {s : State} (hs : s.Inv) : s.ackRedraw.Inv where
  mem := hs.mem
  sound := hs.sound
  waiting := hs.waiting
  fault f hf :=
    have ⟨hstart, hstep⟩ := hs.fault f hf
    ⟨hstart, step_fault_congr hstep rfl rfl rfl⟩

/-- Settles O23. -/
theorem hostMovesKeepInvariant : Obligations.HostMovesKeepInvariant := by
  intro m s t hs h
  cases m with
  | reset =>
    cases h
    exact State.inv_of_clear Memory.wf_nil rfl
  | loadByte a v =>
    rw [State.loadByte_eq_next h]
    exact State.inv_memWrite a v hs (State.started_of_loadByte_eq_next h)
  | cycle inp => exact cycle_inv (s := s.supply inp) hs.mem h
  | ackRedraw =>
    cases h
    exact State.inv_ackRedraw hs
  | readDisplay | observe =>
    cases h
    exact hs

end Sys2Proof.Machine

/-! ## States that no instruction tells apart (spec 10_state.md R23, R26, R30 to R33, R35, R37) -/

namespace Sys2Proof.Machine

theorem lineOf_add_zextByte (a : Word) (b : Byte) : lineOf (a + zextByte b) = (lineOf a + b.toNat) % 4096 := by
  simp only [lineOf, BitVec.toNat_add, zextByte_toNat]
  omega

/-- A part of the state that instructions write or ignore but never read. -/
inductive Hidden where
  /-- Bits 15 to 12 of I (R23). -/
  | highIndex
  /-- The stack entries at `sp` and above (R26). -/
  | staleStack
  /-- ST, the redraw flag and the output pins (R30, R31, R35). -/
  | unreadable
  /-- The host's side, where the instruction reads no input (R32, R33). -/
  | host

/-- The two states differ at most in the part `p`. -/
structure AlikeBut (p : Hidden) (s t : State) : Prop where
  mem : t.mem = s.mem
  v : t.v = s.v
  pc : t.pc = s.pc
  sp : t.sp = s.sp
  disp : t.disp = s.disp
  dt : t.dt = s.dt
  font : t.font = s.font
  line : lineOf t.i = lineOf s.i
  live : ∀ k : Fin 16, k.val < s.sp.val → t.stack[k] = s.stack[k]
  i : p ≠ .highIndex → t.i = s.i
  stack : p ≠ .staleStack → t.stack = s.stack
  st : p ≠ .unreadable → t.st = s.st
  redraw : p ≠ .unreadable → t.redraw = s.redraw
  out : p ≠ .unreadable → t.out = s.out
  env : p ≠ .host → t.env = s.env

namespace AlikeBut

variable {p : Hidden} {s t : State}

/-! ### What alike states read alike -/

theorem getV (h : AlikeBut p s t) (r : Nibble) : t.getV r = s.getV r := State.getV_congr h.v r

theorem memRead (h : AlikeBut p s t) {a b : Word} (hab : lineOf b = lineOf a) : t.memRead b = s.memRead a :=
  State.memRead_congr h.font h.mem hab

theorem fetchWord (h : AlikeBut p s t) : t.fetchWord = s.fetchWord := by
  simp only [State.fetchWord, h.pc, h.memRead rfl]

theorem effAddr (h : AlikeBut p s t) (k : Nat) (hp : p ≠ .highIndex) : t.effAddr k = s.effAddr k := by
  simp only [State.effAddr, h.i hp]

theorem regsUpTo (h : AlikeBut p s t) (x : Nibble) : t.regsUpTo x = s.regsUpTo x := by
  simp only [State.regsUpTo, h.v]

theorem line_effAddr (h : AlikeBut p s t) (k : Nat) : lineOf (t.effAddr k) = lineOf (s.effAddr k) := by
  simp only [State.effAddr, lineOf_add, h.line]

theorem drawRows (h : AlikeBut p s t) (vx vy : Byte) (n : Nat) : t.drawRows vx vy n = s.drawRows vx vy n :=
  State.drawRows_congr vx vy n (fun _ _ => h.memRead) h.disp h.line

/-! ### What keeps alike states alike -/

theorem setMem (h : AlikeBut p s t) (m : Memory) : AlikeBut p { s with mem := m } { t with mem := m } :=
  { h with mem := rfl }

theorem setRegs (h : AlikeBut p s t) (v : Vector Byte 16) : AlikeBut p { s with v := v } { t with v := v } :=
  { h with v := rfl }

theorem jump (h : AlikeBut p s t) (a : Word) : AlikeBut p (s.jump a) (t.jump a) := { h with pc := rfl }

theorem setDT (h : AlikeBut p s t) (b : Byte) : AlikeBut p { s with dt := b } { t with dt := b } :=
  { h with dt := rfl }

theorem setST (h : AlikeBut p s t) (b : Byte) : AlikeBut p { s with st := b } { t with st := b } :=
  { h with st := fun _ => rfl }

theorem setDisplay (h : AlikeBut p s t) (d : Display) :
    AlikeBut p { s with disp := d, redraw := true } { t with disp := d, redraw := true } :=
  { h with disp := rfl, redraw := fun _ => rfl }

theorem setI (h : AlikeBut p s t) {a b : Word} (hline : lineOf b = lineOf a) (hi : p ≠ .highIndex → b = a) :
    AlikeBut p (s.setI a) (t.setI b) :=
  { h with line := hline, i := hi }

theorem waitForKey (h : AlikeBut p s t) : AlikeBut p s.waitForKey t.waitForKey :=
  { h with out := fun hp => by rw [State.waitForKey_out, State.waitForKey_out, h.out hp] }

theorem setV (h : AlikeBut p s t) (x : Nibble) (b : Byte) : AlikeBut p (s.setV x b) (t.setV x b) :=
  { h with v := by rw [State.setV_v, State.setV_v, h.v] }

theorem setFlagged (h : AlikeBut p s t) (x : Nibble) (f b : Byte) :
    AlikeBut p (s.setFlagged x f b) (t.setFlagged x f b) :=
  (h.setV 0xF f).setV x b

theorem advance (h : AlikeBut p s t) : AlikeBut p s.advance t.advance :=
  { h with pc := by rw [State.advance_pc, State.advance_pc, h.pc] }

theorem skipIf (h : AlikeBut p s t) (c : Bool) : AlikeBut p (s.skipIf c) (t.skipIf c) := by
  cases c with
  | false => exact h.advance
  | true => exact { h with pc := congrArg (· + 4) h.pc }

end AlikeBut

theorem State.storeBytes_eq (s : State) (a : Word) (bs : List Byte) :
    s.storeBytes a bs = { s with mem := (s.storeBytes a bs).mem } := by
  induction bs generalizing s a with
  | nil => rfl
  | cons b bs ih => exact ih (s.memWrite a b) (a + 1)

theorem State.loadRegs_eq (s : State) (a : Word) (k : Nat) :
    s.loadRegs a k = { s with v := (s.loadRegs a k).v } := by
  induction k with
  | zero => rfl
  | succ k ih => exact congrArg (State.setV · (BitVec.ofNat 4 k) _) ih

namespace AlikeBut

variable {p : Hidden} {s t : State}

theorem storeBytes (h : AlikeBut p s t) (bs : List Byte) :
    AlikeBut p (s.storeBytes s.i bs) (t.storeBytes t.i bs) := by
  rw [State.storeBytes_eq s, State.storeBytes_eq t, State.storeBytes_mem_congr bs h.font h.mem h.line]
  exact h.setMem _

theorem loadRegs (h : AlikeBut p s t) (k : Nat) : AlikeBut p (s.loadRegs s.i k) (t.loadRegs t.i k) := by
  rw [State.loadRegs_eq s, State.loadRegs_eq t, State.loadRegs_v_congr k (fun _ _ => h.memRead) h.v h.line]
  exact h.setRegs _

theorem push (h : AlikeBut p s t) (hs : s.sp.val < 16) (ht : t.sp.val < 16) :
    AlikeBut p { s with stack := s.stack.set s.sp.val s.pc hs, sp := ⟨s.sp.val + 1, Nat.succ_lt_succ hs⟩ }
      { t with stack := t.stack.set t.sp.val t.pc ht, sp := ⟨t.sp.val + 1, Nat.succ_lt_succ ht⟩ } :=
  { h with
    sp := by simp only [h.sp]
    live := fun k hk => by
      have hlive := h.live k
      simp only [Fin.getElem_fin, Vector.getElem_set, h.sp, h.pc] at hlive hk ⊢
      split
      · rfl
      · exact hlive (by omega)
    stack := fun hp => by simp only [h.stack hp, h.sp, h.pc] }

theorem pop (h : AlikeBut p s t) (hs : s.sp.val - 1 < 17) :
    AlikeBut p { s with sp := ⟨s.sp.val - 1, hs⟩ } { t with sp := ⟨s.sp.val - 1, hs⟩ } :=
  { h with
    sp := rfl
    live := fun k hk => h.live k (Nat.lt_of_lt_of_le hk (Nat.sub_le _ _)) }

end AlikeBut

/-! ### Instructions -/

/-- A call pushes the same address at the same place, or faults in both states. -/
theorem AlikeBut.exec_call {p : Hidden} {s t : State} (h : AlikeBut p s t) (nnn : Addr12) :
    SameOutcome (AlikeBut p) (exec (.call nnn) s) (exec (.call nnn) t) := by
  by_cases hfull : s.sp.val = 16
  · rw [exec_call_of_full nnn hfull, exec_call_of_full nnn (h.sp ▸ hfull), h.pc]
    rfl
  · have hlt : s.sp.val < 16 := by omega
    have hlt' : t.sp.val < 16 := h.sp ▸ hlt
    simp only [exec, execCall, State.push_of_lt _ hlt, State.push_of_lt _ hlt']
    exact (h.push hlt hlt').jump _

/-- A return pops an entry below `sp`, which is the same in both states, or faults in both. -/
theorem AlikeBut.exec_ret {p : Hidden} {s t : State} (h : AlikeBut p s t) :
    SameOutcome (AlikeBut p) (exec .ret s) (exec .ret t) := by
  by_cases hempty : s.sp.val = 0
  · rw [exec_ret_of_empty hempty, exec_ret_of_empty (h.sp ▸ hempty), h.pc]
    rfl
  · have hpos : 0 < s.sp.val := by omega
    have htop : t.stack[s.sp.val - 1] = s.stack[s.sp.val - 1] := h.live ⟨s.sp.val - 1, by omega⟩ (by simp; omega)
    simp only [exec, execRet, State.pop_of_pos hpos, State.pop_of_pos (h.sp ▸ hpos : 0 < t.sp.val), h.sp, htop]
    exact ((h.pop _).jump _).advance

theorem AlikeBut.exec_sameOutcome {p : Hidden} {s t : State} (h : AlikeBut p s t) {i : Instr}
    (hkey : readsKeypad i = true → t.input.key = s.input.key)
    (hrand : readsRandom i = true → t.input.rand = s.input.rand) :
    SameOutcome (AlikeBut p) (exec i s) (exec i t) := by
  cases i with
  | call nnn => exact h.exec_call nnn
  | ret => exact h.exec_ret
  | jp nnn => exact h.jump _
  | jpV0 nnn =>
    simp only [exec, execJpV0, h.getV]
    exact h.jump _
  | seImm x y | sneImm x y | seReg x y | sneReg x y =>
    simp only [exec, execSeImm, execSneImm, execSeReg, execSneReg, h.getV]
    exact h.skipIf _
  | skp x | sknp x =>
    simp only [exec, execSkp, execSknp, State.keyDown, h.getV, hkey rfl]
    exact h.skipIf _
  | ldImm x y | addImm x y | ldReg x y | orReg x y | andReg x y | xorReg x y | ldVxDT x =>
    simp only [exec, execLdImm, execAddImm, execLdReg, execOrReg, execAndReg, execXorReg, execLdVxDT, h.getV, h.dt]
    exact (h.setV _ _).advance
  | rnd x nn =>
    simp only [exec, execRnd, hrand rfl]
    exact (h.setV _ _).advance
  | addReg x y | subReg x y | shr x y | subnReg x y | shl x y =>
    simp only [exec, execAddReg, execSubReg, execShr, execSubnReg, execShl, h.getV]
    exact (h.setFlagged _ _ _).advance
  | cls => exact (h.setDisplay _).advance
  | drw x y n =>
    simp only [exec, execDrw, h.getV, h.drawRows]
    exact ((h.setDisplay _).setV _ _).advance
  | ldVxK x =>
    simp only [exec, execLdVxK, hkey rfl]
    split
    · exact h.waitForKey
    · exact (h.setV _ _).advance
  | ldDTVx x =>
    simp only [exec, execLdDTVx, h.getV]
    exact (h.setDT _).advance
  | ldSTVx x =>
    simp only [exec, execLdSTVx, h.getV]
    exact (h.setST _).advance
  | ldI nnn => exact (h.setI rfl fun _ => rfl).advance
  | ldF x =>
    simp only [exec, execLdF, h.getV]
    exact (h.setI rfl fun _ => rfl).advance
  | addI x =>
    simp only [exec, execAddI, h.getV]
    exact (h.setI (by rw [lineOf_add_zextByte, lineOf_add_zextByte, h.line]) fun hp => by rw [h.i hp]).advance
  | ldB x =>
    simp only [exec, execLdB, h.getV]
    exact (h.storeBytes _).advance
  | ldMemVx x =>
    simp only [exec, execLdMemVx, h.regsUpTo]
    exact ((h.storeBytes _).setI (h.line_effAddr _) (h.effAddr _)).advance
  | ldVxMem x =>
    exact ((h.loadRegs _).setI (h.line_effAddr _) (h.effAddr _)).advance

/-! ### Steps -/

theorem AlikeBut.beginCycle {p : Hidden} {s t : State} (h : AlikeBut p s t) : AlikeBut p s.beginCycle t.beginCycle :=
  { h with out := fun _ => rfl }

/-- The timers tick alike where the inputs are the same. -/
theorem AlikeBut.endCycle {p : Hidden} {s t : State} (h : AlikeBut p s t) (hp : p ≠ .host) :
    AlikeBut p s.endCycle t.endCycle :=
  have hinput : t.input = s.input := State.input_congr (h.env hp)
  { h with
    dt := by rw [State.endCycle_dt, State.endCycle_dt, hinput, h.dt]
    st := fun hu => by rw [State.endCycle_st, State.endCycle_st, hinput, h.st hu]
    out := fun hu => by rw [State.endCycle_out, State.endCycle_out, hinput, h.out hu, h.st hu]
    env := fun _ => by rw [State.endCycle_env, State.endCycle_env, h.env hp] }

theorem SameOutcome.cases {R : State → State → Prop} {o o' : Host.Outcome State Fault Refusal} (h : SameOutcome R o o') :
    (∃ s t, o = .next s ∧ o' = .next t ∧ R s t) ∨ (∃ f, o = .fault f ∧ o' = .fault f) ∨
      ∃ r, o = .refused r ∧ o' = .refused r := by
  unfold SameOutcome at h
  split at h
  · exact .inl ⟨_, _, rfl, rfl, h⟩
  · exact .inr (.inl ⟨_, rfl, h ▸ rfl⟩)
  · exact .inr (.inr ⟨_, rfl, h ▸ rfl⟩)
  · exact h.elim

theorem SameOutcome.mono {R Q : State → State → Prop} {o o' : Host.Outcome State Fault Refusal}
    (h : SameOutcome R o o') (hRQ : ∀ {s t}, R s t → Q s t) : SameOutcome Q o o' := by
  obtain ⟨s, t, rfl, rfl, hst⟩ | ⟨f, rfl, rfl⟩ | ⟨r, rfl, rfl⟩ := h.cases
  · exact hRQ hst
  · rfl
  · rfl

/-- One cycle of two alike states with the same inputs: the same fault, or alike next states. -/
theorem AlikeBut.step_sameOutcome {p : Hidden} {s t : State} (h : AlikeBut p s t) (hp : p ≠ .host) :
    SameOutcome (AlikeBut p) (step s) (step t) := by
  cases hword : decodeWord s.fetchWord with
  | none =>
    have hword' : decodeWord t.fetchWord = none := by rw [h.fetchWord, hword]
    rw [step_of_unsupported hword, step_of_unsupported hword', h.fetchWord, h.pc]
    rfl
  | some i =>
    have hword' : decodeWord t.fetchWord = some i := by rw [h.fetchWord, hword]
    have hinput : t.beginCycle.input = s.beginCycle.input := State.input_congr (h.env hp)
    have hexec := h.beginCycle.exec_sameOutcome (i := i) (fun _ => by rw [hinput]) (fun _ => by rw [hinput])
    rw [step_of_decode hword, step_of_decode hword']
    obtain ⟨s', t', hs, ht, h'⟩ | ⟨f, hs, ht⟩ | ⟨r, hs, -⟩ := hexec.cases
    · rw [hs, ht]
      exact h'.endCycle hp
    · rw [hs, ht]
      rfl
    · exact absurd hs (exec_ne_refused _ _ _)

/-! ### The four differences -/

theorem AlikeBut.refl (p : Hidden) (s : State) : AlikeBut p s s := by
  constructor <;> intros <;> rfl

/-- Alike states are equal but for the elements of which some part is hidden. -/
theorem AlikeBut.eq_update {p : Hidden} {s t : State} (h : AlikeBut p s t) :
    t = { s with i := t.i, stack := t.stack, st := t.st, redraw := t.redraw, out := t.out, env := t.env } := by
  obtain ⟨hmem, hv, hpc, hsp, hdisp, hdt, hfont⟩ := h
  cases s
  cases t
  simp_all

theorem differInHighIndex_iff {s t : State} : DifferInHighIndex s t ↔ AlikeBut .highIndex s t := by
  constructor
  · rintro ⟨heq, hline⟩
    rw [heq]
    exact { AlikeBut.refl .highIndex s with line := hline, i := absurd rfl }
  · intro h
    refine ⟨?_, h.line⟩
    calc t = _ := h.eq_update
      _ = { s with i := t.i } := by rw [h.stack nofun, h.st nofun, h.redraw nofun, h.out nofun, h.env nofun]

theorem differInStaleStack_iff {s t : State} : DifferInStaleStack s t ↔ AlikeBut .staleStack s t := by
  constructor
  · rintro ⟨heq, hlive⟩
    rw [heq]
    exact { AlikeBut.refl .staleStack s with live := hlive, stack := absurd rfl }
  · intro h
    refine ⟨?_, h.live⟩
    calc t = _ := h.eq_update
      _ = { s with stack := t.stack } := by rw [h.i nofun, h.st nofun, h.redraw nofun, h.out nofun, h.env nofun]

theorem differInUnreadable_iff {s t : State} : DifferInUnreadable s t ↔ AlikeBut .unreadable s t := by
  constructor
  · intro heq
    rw [heq]
    exact { AlikeBut.refl .unreadable s with st := absurd rfl, redraw := absurd rfl, out := absurd rfl }
  · intro h
    calc t = _ := h.eq_update
      _ = { s with st := t.st, redraw := t.redraw, out := t.out } := by rw [h.i nofun, h.stack nofun, h.env nofun]

theorem differInHost_iff {s t : State} : DifferInHost s t ↔ AlikeBut .host s t := by
  constructor
  · intro heq
    rw [heq]
    exact { AlikeBut.refl .host s with env := absurd rfl }
  · intro h
    calc t = _ := h.eq_update
      _ = { s with env := t.env } := by rw [h.i nofun, h.stack nofun, h.st nofun, h.redraw nofun, h.out nofun]

/-- Settles O46: an address that differs in bits 15 to 12 has the same line, and so has every sum it enters. -/
theorem highIndexBitsNeverShow : Obligations.HighIndexBitsNeverShow := fun _ _ h =>
  ((differInHighIndex_iff.1 h).step_sameOutcome nofun).mono differInHighIndex_iff.2

/-- Settles O47: a return pops below `sp`, and a call overwrites the entry it makes live. -/
theorem staleStackEntriesNeverShow : Obligations.StaleStackEntriesNeverShow := fun _ _ h =>
  ((differInStaleStack_iff.1 h).step_sameOutcome nofun).mono differInStaleStack_iff.2

/-- Settles O48. -/
theorem soundTimerAndRedrawNeverShow : Obligations.SoundTimerAndRedrawNeverShow := fun _ _ h =>
  ((differInUnreadable_iff.1 h).step_sameOutcome nofun).mono differInUnreadable_iff.2

/-- Settles O45: the two cycles differ in the host's side alone, and each reader finds its own input unchanged. -/
theorem inputsReachOnlyTheirReaders : Obligations.InputsReachOnlyTheirReaders := by
  intro i s p q hkey hrand
  have halike : AlikeBut .host (s.supply p) (s.supply q) := differInHost_iff.1 rfl
  exact (halike.exec_sameOutcome (fun hi => (hkey hi).symm) (fun hi => (hrand hi).symm)).mono differInHost_iff.2

end Sys2Proof.Machine

/-! ## What each instruction leaves (spec 10_state.md R20 to R22, R26) -/

namespace Sys2Proof.Machine

theorem State.getV_setV_of_ne (s : State) {x r : Nibble} (b : Byte) (hr : r ≠ x) : (s.setV x b).getV r = s.getV r := by
  rw [State.getV_setV, if_neg hr]

theorem State.getV_setFlagged_of_ne (s : State) {x r : Nibble} (f b : Byte) (hr : r ≠ x) (hF : r ≠ 0xF) :
    (s.setFlagged x f b).getV r = s.getV r := by
  rw [State.getV_setFlagged, if_neg hr, if_neg hF]

/-- A load whose last register is `x` leaves the registers above `x` (R195). -/
theorem State.getV_loadRegs_of_lt (s : State) (a : Word) {x r : Nibble} (hx : ¬ r ≤ x) :
    (s.loadRegs a (regCount x)).getV r = s.getV r := by
  have hlt := x.isLt
  rw [BitVec.le_def] at hx
  rw [State.getV_loadRegs _ _ _ (by rw [regCount]; omega), if_neg (by rw [regCount]; omega)]

/-- A register changes only as the destination, or as the flag. -/
theorem exec_getV {i : Instr} {s t : State} (h : exec i s = .next t) {r : Nibble} (hr : namesDestination r i = false) :
    t.getV r = s.getV r ∨ (r = 0xF ∧ writesFlag i = true) := by
  cases i with
  | call nnn => obtain ⟨_, rfl⟩ := execCall_eq_next h; exact .inl rfl
  | ret => obtain ⟨_, _, _, rfl⟩ := execRet_eq_next h; exact .inl rfl
  | ldVxK x =>
    simp only [exec, execLdVxK, Host.Outcome.next.injEq] at h
    subst h
    split
    · exact .inl rfl
    · exact .inl (State.getV_setV_of_ne _ _ (beq_eq_false_iff_ne.1 hr))
  | ldImm x y | addImm x y | ldReg x y | orReg x y | andReg x y | xorReg x y | rnd x y | ldVxDT x =>
    cases h
    exact .inl (State.getV_setV_of_ne _ _ (beq_eq_false_iff_ne.1 hr))
  | addReg x y | subReg x y | shr x y | subnReg x y | shl x y =>
    cases h
    by_cases hF : r = 0xF
    · exact .inr ⟨hF, rfl⟩
    · exact .inl (State.getV_setFlagged_of_ne _ _ _ (beq_eq_false_iff_ne.1 hr) hF)
  | drw x y n =>
    cases h
    by_cases hF : r = 0xF
    · exact .inr ⟨hF, rfl⟩
    · exact .inl (State.getV_setV_of_ne _ _ hF)
  | ldVxMem x => cases h; exact .inl (State.getV_loadRegs_of_lt s s.i (of_decide_eq_false hr))
  | ldB x | ldMemVx x => cases h; exact .inl (State.getV_storeBytes _ _ _ _)
  | seImm x y | sneImm x y | seReg x y | sneReg x y | skp x | sknp x => cases h; exact .inl (State.getV_skipIf _ _ _)
  | _ => cases h; exact .inl rfl

theorem flagByte_eq_zero_or_one (c : Bool) : flagByte c = 0 ∨ flagByte c = 1 := by
  cases c
  · exact .inl rfl
  · exact .inr rfl

/-- A flag writer whose result goes elsewhere leaves a flag in VF. -/
theorem exec_flag {i : Instr} {s t : State} (h : exec i s = .next t) (hdest : namesDestination 0xF i = false)
    (hflag : writesFlag i = true) : ∃ c, t.getV 0xF = flagByte c := by
  cases i with
  | addReg x y | subReg x y | shr x y | subnReg x y | shl x y =>
    cases h
    simp only [namesDestination, beq_eq_false_iff_ne] at hdest
    rw [State.getV_advance, State.getV_setFlagged, if_neg hdest, if_pos rfl]
    exact ⟨_, rfl⟩
  | drw x y n =>
    cases h
    exact ⟨_, State.getV_setV_same _ _ _⟩
  | _ => cases hflag

/-- Settles O33. -/
theorem flagRegisterRule : Obligations.FlagRegisterRule := by
  intro i s t h hdest
  constructor
  · intro hflag
    obtain ⟨c, hc⟩ := exec_flag h hdest hflag
    rw [hc]
    exact flagByte_eq_zero_or_one c
  · intro hflag
    obtain hsame | ⟨-, hwrites⟩ := exec_getV h hdest
    · exact hsame
    · cases hflag.symm.trans hwrites

/-- Everything but `pc` and the registers is as before, where the table lists the instruction for no such element; one
frame for all instructions. -/
theorem exec_frame {i : Instr} {s t : State} (h : exec i s = .next t) :
    (writesMemory i = false → t.mem = s.mem) ∧ (writesIndex i = false → t.i = s.i) ∧
    (writesStackPointer i = false → t.sp = s.sp) ∧ (writesStackEntries i = false → t.stack = s.stack) ∧
    (writesDisplay i = false → t.disp = s.disp ∧ t.redraw = s.redraw) ∧
    (writesDelayTimer i = false → t.dt = s.dt) ∧ (writesSoundTimer i = false → t.st = s.st) := by
  cases i with
  | call nnn =>
    obtain ⟨_, rfl⟩ := execCall_eq_next h
    simp [writesStackPointer, writesStackEntries]
  | ret =>
    obtain ⟨_, _, _, rfl⟩ := execRet_eq_next h
    simp [writesStackPointer]
  | ldVxK x =>
    simp only [exec, execLdVxK, Host.Outcome.next.injEq] at h
    subst h
    split <;> simp
  | cls | drw x y n => cases h; simp [writesDisplay]
  | ldI x | addI x | ldF x => cases h; simp [writesIndex]
  | ldVxMem x => cases h; simp [writesIndex]
  | ldB x | ldMemVx x => cases h; simp [writesMemory, writesIndex]
  | ldDTVx x => cases h; simp [writesDelayTimer]
  | ldSTVx x => cases h; simp [writesSoundTimer]
  | _ => cases h; simp

/-- Settles O44. -/
theorem onlyNamedInstructionsWrite : Obligations.OnlyNamedInstructionsWrite := by
  intro i s t h
  obtain ⟨hmem, hi, hsp, hstack, hdisp, hdt, hst⟩ := exec_frame h
  exact ⟨fun hw a => State.memRead_congr (exec_font h) (hmem hw) rfl, hi, hsp, fun hw k => by rw [hstack hw],
    fun hw => ⟨fun yy xx => by rw [(hdisp hw).1], (hdisp hw).2⟩, hdt, hst, fun r hr => exec_getV h hr⟩

end Sys2Proof.Machine

/-! ## Reset and the moves of the host (spec 10_state.md R36, R38) -/

namespace Sys2Proof.Machine

/-- Settles O17. -/
theorem resetStateIsAsStated : Obligations.ResetStateIsAsStated := by
  refine ⟨⟨Config.defaultFont, rfl⟩, ?_⟩
  rintro font s rfl
  refine ⟨fun a ha => ?_, fun a hlow hhigh => ?_, fun r => ?_, rfl, rfl, rfl, fun k => ?_, blankDisplay_get, rfl, rfl, rfl,
    rfl, rfl, rfl⟩
  · rw [State.memRead_resetWith, lineOf_of_lt (by omega), resetByte_of_lt ha]
  · rw [State.memRead_resetWith, lineOf_of_lt hhigh, resetByte_of_le hlow]
  · exact Vector.getElem_replicate _
  · exact Vector.getElem_replicate _

theorem State.loadByte_of_allowed {s : State} {a : Word} (v : Byte) (hlow : 0x200 ≤ a.toNat) (hhigh : a.toNat ≤ 0xFFF)
    (hstart : s.env.started = false) : s.loadByte a v = .next (s.memWrite a v) :=
  if_pos ⟨hlow, hhigh, hstart⟩

theorem State.loadByte_of_not_allowed {s : State} {a : Word} (v : Byte)
    (h : a.toNat < 0x200 ∨ 0xFFF < a.toNat ∨ s.env.started = true) : s.loadByte a v = .refused .loadNotAllowed := by
  refine if_neg ?_
  rintro ⟨hlow, hhigh, hstart⟩
  obtain h | h | h := h
  · omega
  · omega
  · cases hstart.symm.trans h

/-- A cycle always goes on, and uses up one entry of the queue. -/
theorem exists_cycle_eq_next (s : State) : ∃ u, cycle s = .next u ∧ u.env.inputs = s.env.inputs.tail := by
  obtain ⟨u, hstep, hcycle⟩ | ⟨f, -, hcycle⟩ := cycle_eq s
  · obtain ⟨i, t, -, he, rfl⟩ := step_eq_next hstep
    exact ⟨_, hcycle, by rw [State.endCycle_env, exec_env he, State.beginCycle_env]⟩
  · exact ⟨_, hcycle, rfl⟩

theorem cycle_of_step_eq_next {s u : State} (h : step s = .next u) : cycle s = .next u := by
  obtain ⟨t, hstep, hcycle⟩ | ⟨f, hstep, -⟩ := cycle_eq s
  · rw [hcycle, ← hstep, h]
  · cases hstep.symm.trans h

/-- Settles O19. -/
theorem hostMovesBetweenCycles : Obligations.HostMovesBetweenCycles := by
  intro s a v inp
  exact ⟨State.loadByte_of_allowed v, State.loadByte_of_not_allowed v, rfl, rfl, rfl, rfl, rfl, rfl, rfl, rfl,
    exists_cycle_eq_next (s.supply inp), fun _ => cycle_of_step_eq_next⟩

end Sys2Proof.Machine

/-! ## Main memory (spec 20_memory.md R62 to R66, R71) -/

namespace Sys2Proof.Machine

/-- Settles O15. -/
theorem memoryReadSeesLatestWrite : Obligations.MemoryReadSeesLatestWrite := by
  intro s a v hmem
  refine ⟨fun b hb => ?_, fun b hb => ?_, State.memWrite_wf a v hmem⟩
  · exact (State.memRead_memWrite a b v hmem).trans (if_pos hb)
  · exact (State.memRead_memWrite a b v hmem).trans (if_neg hb)

theorem wordOfBytes_toNat (hi lo : Byte) : (wordOfBytes hi lo).toNat = hi.toNat * 256 + lo.toNat := by
  have hhi := hi.isLt
  have hlo := lo.isLt
  exact Nat.mod_eq_of_lt (by omega)

theorem State.fetchWord_toNat (s : State) :
    s.fetchWord.toNat = (s.memRead s.pc).toNat * 256 + (s.memRead (s.pc + 1)).toNat :=
  wordOfBytes_toNat _ _

theorem lineOf_add_one (a : Word) : lineOf (a + 1) = (lineOf a + 1) % 4096 := lineOf_add a 1

theorem State.lineOf_effAddr (s : State) (k : Nat) : lineOf (s.effAddr k) = (s.i.toNat + k) % 4096 := by
  rw [State.effAddr, lineOf_add, lineOf, Nat.mod_add_mod]

/-- A read in the run of bytes that store-registers leaves (R194). -/
theorem State.memRead_storeBytes_regsUpTo {s : State} {x : Nibble} {k : Nat} {a : Word} (hmem : s.memWf)
    (hk : k ≤ x.toNat) (ha : lineOf a = lineOf (s.effAddr k)) :
    (s.storeBytes s.i (s.regsUpTo x)).memRead a = s.getV (BitVec.ofNat 4 k) := by
  have hx := x.isLt
  have hlen : (s.regsUpTo x).length = x.toNat + 1 := s.length_regsUpTo x
  rw [State.memRead_storeBytes_at s.i a _ hmem (by omega) k (by omega) ha, State.getElem_regsUpTo]

/-- Settles O16: the two addresses of the fetch lie on the lines of `I + k` and `I + k + 1`. -/
theorem storedRegistersAreFetched : Obligations.StoredRegistersAreFetched := by
  intro s t x k a hmem hk hexec ha
  cases hexec
  have hhigh : lineOf a = lineOf (s.effAddr k) := ha.trans (s.lineOf_effAddr k).symm
  have hlow : lineOf (a + 1) = lineOf (s.effAddr (k + 1)) := by
    rw [lineOf_add_one, hhigh, State.lineOf_effAddr, State.lineOf_effAddr, Nat.mod_add_mod, Nat.add_assoc]
  rw [State.fetchWord_toNat]
  simp only [State.jump_pc, State.memRead_jump, State.memRead_advance, State.memRead_setI,
    State.memRead_storeBytes_regsUpTo hmem (Nat.le_of_lt hk) hhigh, State.memRead_storeBytes_regsUpTo hmem hk hlow]

/-- Settles O5. -/
theorem fetchIsBigEndianAndWraps : Obligations.FetchIsBigEndianAndWraps := by
  intro s
  have hpc : lineOf (s.pc + 1) = (s.pc.toNat + 1) % 65536 % 4096 := by rw [lineOf, BitVec.toNat_add]; rfl
  rw [State.fetchWord_toNat, State.memRead, State.memRead, hpc, lineOf]

end Sys2Proof.Machine

/-! ## The decoder against the encoder and the opcode table (spec 30_encoding.md R92 to R101) -/

namespace Sys2Proof

/-- The decoder inverts the encoder. In each format of R92 the fields of the encoded word are the operands, and the
family (with the fixed low nibble or byte of formats XY and X) selects the instruction's own arm. -/
theorem decodeWord_encodeWord (i : Instr) : decodeWord (encodeWord i) = some i := by
  cases i
  case cls | ret => rfl
  case jp | call | ldI | jpV0 =>
    simp only [encodeWord, decodeWord, fieldFam_wordA, fieldNNN_wordA]
    rfl
  case seImm | sneImm | ldImm | addImm | rnd | skp | sknp | ldVxDT | ldVxK | ldDTVx | ldSTVx | addI | ldF | ldB
      | ldMemVx | ldVxMem =>
    simp only [encodeWord, decodeWord, fieldFam_wordXI, fieldX_wordXI, fieldNN_wordXI]
    rfl
  case seReg | ldReg | orReg | andReg | xorReg | addReg | subReg | shr | subnReg | shl | sneReg | drw =>
    simp only [encodeWord, decodeWord, fieldFam_wordXYN, fieldX_wordXYN, fieldY_wordXYN, fieldN_wordXYN]
    rfl

/-- Settles O2. -/
theorem decodeOfEncodeIsIdentity : Obligations.DecodeOfEncodeIsIdentity := by
  intro i rest
  simp only [encode, List.cons_append, List.nil_append, decode, Machine.wordOfBytes_bytes, decodeWord_encodeWord]

/-- Settles O3. -/
theorem encodeOfDecodeIsIdentity : Obligations.EncodeOfDecodeIsIdentity := fun _ _ => encodeWord_of_decodeWord

/-- Settles O1: closed words, evaluated. -/
theorem sampleWordsDecode : Obligations.SampleWordsDecode := by
  unfold Obligations.SampleWordsDecode
  decide

open Laws.EncodesInRow in
theorem encodesInRow (i : Instr) : Laws.EncodesInRow.Statement i :=
  i.casesOn cls ret jp call seImm sneImm seReg ldImm addImm ldReg orReg andReg xorReg addReg subReg shr subnReg shl
    sneReg ldI jpV0 rnd drw skp sknp ldVxDT ldVxK ldDTVx ldSTVx addI ldF ldB ldMemVx ldVxMem

theorem exists_row_of_decodeWord {w : Word} {i : Instr} (h : decodeWord w = some i) :
    ∃ r ∈ opcodeTable, r.mnemonic = mnemonicOf i ∧ w &&& r.mask = r.pattern := by
  rw [← encodeWord_of_decodeWord h]
  exact encodesInRow i

/-! ### What a row accepts, the decoder decodes -/

/-- Every word of the row decodes to an instruction of the row's mnemonic. -/
def OpcodeRow.Decodes (r : OpcodeRow) : Prop :=
  ∀ w : Word, w &&& r.mask = r.pattern → ∃ i, decodeWord w = some i ∧ mnemonicOf i = r.mnemonic

theorem fieldFam_eq_of_and_F000 {w : Word} {fam : Nibble} (h : w &&& 0xF000 = wordXYN fam 0 0 0) : fieldFam w = fam := by
  rwa [and_F000 _ _ (fieldX_wordXYN ..) (fieldY_wordXYN ..) (fieldN_wordXYN ..), fieldFam_wordXYN] at h

/-- A row whose words are all encodings: the decoder inverts the encoder. -/
theorem OpcodeRow.Decodes.of_encodes {r : OpcodeRow}
    (h : ∀ w : Word, w &&& r.mask = r.pattern → ∃ i, encodeWord i = w ∧ mnemonicOf i = r.mnemonic) : r.Decodes := by
  intro w hw
  obtain ⟨i, rfl, hm⟩ := h w hw
  exact ⟨i, decodeWord_encodeWord i, hm⟩

namespace OpcodeRow.Decodes

/-! A row per format of R92: `c` is its constructor, and the fields of a word that the mask leaves free are its operands. -/

theorem formatZ (i : Instr) : Decodes ⟨mnemonicOf i, 0xFFFF, encodeWord i⟩ := .of_encodes fun _ hw =>
  ⟨i, hw.symm.trans BitVec.and_allOnes, rfl⟩

theorem formatA {m : String} (fam : Nibble) (c : Addr12 → Instr)
    (hc : ∀ nnn, encodeWord (c nnn) = wordA fam nnn := by intros; rfl)
    (hm : ∀ nnn, mnemonicOf (c nnn) = m := by intros; rfl) : Decodes ⟨m, 0xF000, wordXYN fam 0 0 0⟩ :=
  .of_encodes fun w hw => by
    obtain rfl := fieldFam_eq_of_and_F000 hw
    exact ⟨c (fieldNNN w), (hc _).trans (wordA_fields w), hm _⟩

theorem formatXI {m : String} (fam : Nibble) (c : Nibble → Byte → Instr)
    (hc : ∀ x nn, encodeWord (c x nn) = wordXI fam x nn := by intros; rfl)
    (hm : ∀ x nn, mnemonicOf (c x nn) = m := by intros; rfl) : Decodes ⟨m, 0xF000, wordXYN fam 0 0 0⟩ :=
  .of_encodes fun w hw => by
    obtain rfl := fieldFam_eq_of_and_F000 hw
    exact ⟨c (fieldX w) (fieldNN w), (hc _ _).trans (wordXI_fields w), hm _ _⟩

theorem formatXYN {m : String} (fam : Nibble) (c : Nibble → Nibble → Nibble → Instr)
    (hc : ∀ x y n, encodeWord (c x y n) = wordXYN fam x y n := by intros; rfl)
    (hm : ∀ x y n, mnemonicOf (c x y n) = m := by intros; rfl) : Decodes ⟨m, 0xF000, wordXYN fam 0 0 0⟩ :=
  .of_encodes fun w hw => by
    obtain rfl := fieldFam_eq_of_and_F000 hw
    exact ⟨c (fieldX w) (fieldY w) (fieldN w), (hc _ _ _).trans (wordXYN_fields w), hm _ _ _⟩

theorem formatXY {m : String} (fam n : Nibble) (c : Nibble → Nibble → Instr)
    (hc : ∀ x y, encodeWord (c x y) = wordXYN fam x y n := by intros; rfl)
    (hm : ∀ x y, mnemonicOf (c x y) = m := by intros; rfl) : Decodes ⟨m, 0xF00F, wordXYN fam 0 0 n⟩ :=
  .of_encodes fun w hw => by
    rw [and_F00F _ _ (fieldX_wordXYN ..) (fieldY_wordXYN ..), fieldFam_wordXYN, fieldN_wordXYN] at hw
    obtain ⟨rfl, rfl⟩ := hw
    exact ⟨c (fieldX w) (fieldY w), (hc _ _).trans (wordXYN_fields w), hm _ _⟩

theorem formatX {m : String} (fam : Nibble) (nn : Byte) (c : Nibble → Instr)
    (hc : ∀ x, encodeWord (c x) = wordXI fam x nn := by intros; rfl)
    (hm : ∀ x, mnemonicOf (c x) = m := by intros; rfl) : Decodes ⟨m, 0xF0FF, wordXI fam 0 nn⟩ :=
  .of_encodes fun w hw => by
    rw [and_F0FF _ _ (fieldX_wordXI ..), fieldFam_wordXI, fieldNN_wordXI] at hw
    obtain ⟨rfl, rfl⟩ := hw
    exact ⟨c (fieldX w), (hc _).trans (wordXI_fields w), hm _⟩

end OpcodeRow.Decodes

open OpcodeRow.Decodes in
/-- The rows of R95 in the table's order, each by its format. -/
theorem decodes_of_mem_opcodeTable : ∀ r ∈ opcodeTable, r.Decodes := by
  simp only [opcodeTable, List.forall_mem_append, List.forall_mem_cons]
  exact ⟨⟨⟨
    ⟨formatZ .cls, formatZ .ret, formatA 0x1 .jp, formatA 0x2 .call, formatXI 0x3 .seImm, formatXI 0x4 .sneImm,
      formatXY 0x5 0x0 .seReg, formatXI 0x6 .ldImm, formatXI 0x7 .addImm, List.forall_mem_nil _⟩,
    ⟨formatXY 0x8 0x0 .ldReg, formatXY 0x8 0x1 .orReg, formatXY 0x8 0x2 .andReg, formatXY 0x8 0x3 .xorReg,
      formatXY 0x8 0x4 .addReg, formatXY 0x8 0x5 .subReg, formatXY 0x8 0x6 .shr, formatXY 0x8 0x7 .subnReg,
      formatXY 0x8 0xE .shl, formatXY 0x9 0x0 .sneReg, List.forall_mem_nil _⟩⟩,
    ⟨formatA 0xA .ldI, formatA 0xB .jpV0, formatXI 0xC .rnd, formatXYN 0xD .drw, formatX 0xE 0x9E .skp,
      formatX 0xE 0xA1 .sknp, List.forall_mem_nil _⟩⟩,
    ⟨formatX 0xF 0x07 .ldVxDT, formatX 0xF 0x0A .ldVxK, formatX 0xF 0x15 .ldDTVx, formatX 0xF 0x18 .ldSTVx,
      formatX 0xF 0x1E .addI, formatX 0xF 0x29 .ldF, formatX 0xF 0x33 .ldB, formatX 0xF 0x55 .ldMemVx,
      formatX 0xF 0x65 .ldVxMem, List.forall_mem_nil _⟩⟩

theorem nodup_mnemonics : (opcodeTable.map OpcodeRow.mnemonic).Nodup := by decide

theorem OpcodeRow.accepts_iff {r : OpcodeRow} {w : Word} : r.accepts w = true ↔ w &&& r.mask = r.pattern := beq_iff_eq

/-- Two rows that accept one word bear the mnemonic of the one instruction it decodes to, and no two rows share one. -/
theorem row_eq_of_accepts {r q : OpcodeRow} (hr : r ∈ opcodeTable) (hq : q ∈ opcodeTable) {w : Word}
    (hrw : r.accepts w = true) (hqw : q.accepts w = true) : r = q := by
  obtain ⟨i, hi, hir⟩ := decodes_of_mem_opcodeTable r hr w (OpcodeRow.accepts_iff.1 hrw)
  obtain ⟨j, hj, hjq⟩ := decodes_of_mem_opcodeTable q hq w (OpcodeRow.accepts_iff.1 hqw)
  obtain rfl : i = j := Option.some.inj (hi.symm.trans hj)
  exact List.inj_on_of_nodup_map nodup_mnemonics hr hq (hir.symm.trans hjq)

/-- Settles O4. -/
theorem decoderFollowsOpcodeTable : Obligations.DecoderFollowsOpcodeTable :=
  ⟨rfl, fun _ hr _ hq _ => row_eq_of_accepts hr hq, fun _ _ => exists_row_of_decodeWord,
    fun w r hr => decodes_of_mem_opcodeTable r hr w⟩

theorem decodeWord_eq_none_of_no_row {w : Word} (h : ∀ r ∈ opcodeTable, r.accepts w = false) : decodeWord w = none := by
  rw [Option.eq_none_iff_forall_ne_some]
  intro i hi
  obtain ⟨r, hr, -, hw⟩ := exists_row_of_decodeWord hi
  exact Bool.false_ne_true ((h r hr).symm.trans (OpcodeRow.accepts_iff.2 hw))

end Sys2Proof

/-! ## The report of an unsupported word (spec 60_exceptions.md R251, R256, R257) -/

namespace Sys2Proof.Machine

theorem cycle_of_step_eq_fault {s : State} {f : Fault} (h : step s = .fault f) :
    cycle s = .next (s.beginCycle.reportFault f).endCycle := by
  obtain ⟨u, hstep, -⟩ | ⟨g, hstep, hcycle⟩ := cycle_eq s
  · cases hstep.symm.trans h
  · cases hstep.symm.trans h
    exact hcycle

/-- Between the report and the end of the cycle nothing of the program's state but the timers is written (R257). -/
theorem State.endCycle_reportFault_frame (s : State) (f : Fault) :
    SameRegs s (s.beginCycle.reportFault f).endCycle ∧ SameMemory s (s.beginCycle.reportFault f).endCycle ∧
      SameStack s (s.beginCycle.reportFault f).endCycle ∧ SameDisplay s (s.beginCycle.reportFault f).endCycle :=
  ⟨fun _ => rfl, fun _ => rfl, ⟨rfl, fun _ => rfl⟩, fun _ _ => rfl, rfl⟩

/-- Settles O8. -/
theorem unsupportedWordIsReported : Obligations.UnsupportedWordIsReported := by
  intro s hrows
  have hstep := step_of_unsupported (decodeWord_eq_none_of_no_row hrows)
  exact ⟨_, _, hstep, rfl, rfl, rfl, cycle_of_step_eq_fault hstep, rfl, rfl, rfl, s.endCycle_reportFault_frame _⟩

end Sys2Proof.Machine

/-! ## The cycle (spec 40_cycle_sequencer.md R121 to R130; 60_exceptions.md R256, R257, R264, R265) -/

namespace Sys2Proof.Machine

/-! ### The end of a cycle -/

/-- Each timer after the end of a cycle, by the tick (R264). -/
theorem State.timers_endCycle (t : State) :
    (t.input.timerTick = true → t.endCycle.dt.toNat = t.dt.toNat - 1 ∧ t.endCycle.st.toNat = t.st.toNat - 1) ∧
    (t.input.timerTick = false → t.endCycle.dt = t.dt ∧ t.endCycle.st = t.st) := by
  constructor
  · intro htick
    rw [State.endCycle_dt, State.endCycle_st, htick]
    exact ⟨tickDown_true _, tickDown_true _⟩
  · intro htick
    rw [State.endCycle_dt, State.endCycle_st, htick]
    exact ⟨tickDown_false _, tickDown_false _⟩

theorem tickDown_eq_ite (tick : Bool) (b : Byte) :
    tickDown tick b = if tick = true ∧ b ≠ 0 then b - 1 else b := by
  unfold tickDown
  split
  · rename_i hzero
    simp [hzero]
  · rename_i hne
    simp only [ne_eq, hne, not_false_eq_true, and_true]

/-- The trigger is the updater's alone, where it was clear before (R265). -/
theorem State.soundTrigger_endCycle {t : State} (ht : t.out.soundTrigger = false) :
    t.endCycle.out.soundTrigger = (t.input.timerTick && t.st == 1) := by
  simp [ht, Bool.and_comm]

theorem State.endCycle_eq {t : State} (ht : t.out.soundTrigger = false) : t.endCycle = { t with
    dt := if t.input.timerTick = true ∧ t.dt ≠ 0 then t.dt - 1 else t.dt
    st := if t.input.timerTick = true ∧ t.st ≠ 0 then t.st - 1 else t.st
    out := { t.out with soundTrigger := t.input.timerTick && t.st == 1 }
    env := { inputs := t.env.inputs.tail, drawn := t.env.drawn + 1, started := true } } := by
  rw [← State.soundTrigger_endCycle ht, ← tickDown_eq_ite, ← tickDown_eq_ite]
  rfl

/-- No instruction raises the sound trigger: a `LD Vx, K` that waits touches another pin. -/
theorem exec_soundTrigger {i : Instr} {s t : State} (h : exec i s = .next t) :
    t.out.soundTrigger = s.out.soundTrigger := by
  obtain hout | ⟨x, -, -, rfl⟩ := exec_out h
  · rw [hout]
  · rfl

/-! ### The step of a decoded instruction -/

theorem decodeWord_of_decode {s : State} {i : Instr} {rest : List Byte}
    (h : decode [s.memRead s.pc, s.memRead (s.pc + 1)] = .ok (i, rest)) : decodeWord s.fetchWord = some i := by
  cases hw : decodeWord s.fetchWord with
  | none =>
    unfold State.fetchWord at hw
    simp only [decode, hw, reduceCtorEq] at h
  | some j =>
    unfold State.fetchWord at hw
    simp only [decode, hw, Except.ok.injEq, Prod.mk.injEq] at h
    obtain ⟨rfl, -⟩ := h
    rfl

theorem step_of_exec_next {s t : State} {i : Instr} (hw : decodeWord s.fetchWord = some i)
    (he : exec i s.beginCycle = .next t) : step s = .next t.endCycle := by
  rw [step_of_decode hw, he]

/-- Settles O6. -/
theorem stepRunsDecodedInstruction : Obligations.StepRunsDecodedInstruction := by
  intro s i hdecode
  have hw := decodeWord_of_decode hdecode
  refine ⟨fun f => step_of_exec_fault hw, fun t he => ?_⟩
  have henv : t.env = s.env := exec_env (s := s.beginCycle) he
  have hinput : t.input = s.input := State.input_congr henv
  rw [step_of_exec_next hw he, State.endCycle_eq (exec_soundTrigger he), hinput, henv]

/-! ### A faulting cycle -/

/-- Whichever of the three faults it is, its report is the fetched word and `pc` (R256). -/
theorem fault_report_of_step {s : State} {f : Fault} (h : step s = .fault f) :
    f.word = s.fetchWord ∧ f.addr = s.pc := by
  obtain ⟨-, rfl⟩ | ⟨_, -, -, rfl⟩ | ⟨hret, -, rfl⟩ := (step_eq_fault_iff s f).1 h
  · exact ⟨rfl, rfl⟩
  · exact ⟨rfl, rfl⟩
  · exact ⟨encodeWord_of_decodeWord hret, rfl⟩

/-- Settles O9. -/
theorem faultingCycleChangesOnlyTimers : Obligations.FaultingCycleChangesOnlyTimers := by
  intro s f hstep
  obtain ⟨hword, haddr⟩ := fault_report_of_step hstep
  obtain ⟨hregs, hmem, hstack, hdisp⟩ := s.endCycle_reportFault_frame f
  obtain ⟨hticked, hkept⟩ := (s.beginCycle.reportFault f).timers_endCycle
  have hsound : (s.beginCycle.reportFault f).endCycle.out.soundTrigger = true ↔
      s.input.timerTick = true ∧ s.st = 1 := by
    rw [State.soundTrigger_endCycle rfl, Bool.and_eq_true, beq_iff_eq]
    rfl
  exact ⟨_, cycle_of_step_eq_fault hstep, rfl, hword, haddr, rfl, rfl, rfl, hregs, hmem, hstack, hdisp, hticked, hkept,
    hsound⟩

/-! ### A cycle blocked in LD Vx, K -/

theorem exec_ldVxK_of_no_key {s : State} (x : Nibble) (hkey : s.input.key = 0) :
    exec (.ldVxK x) s = .next s.waitForKey := by
  simp only [exec, execLdVxK, lowestKey_eq_none.2 hkey]

/-- Settles O13: the state a blocked cycle leaves is that of the wait, through the timer updater. -/
theorem blockedCycleOnlyTicks : Obligations.BlockedCycleOnlyTicks := by
  intro s x hw hkey
  have hstep : step s = .next s.beginCycle.waitForKey.endCycle :=
    step_of_exec_next hw (exec_ldVxK_of_no_key (s := s.beginCycle) x hkey)
  obtain ⟨hticked, hkept⟩ := s.beginCycle.waitForKey.timers_endCycle
  exact ⟨_, hstep, rfl, rfl, rfl, fun _ => rfl, fun _ => rfl, ⟨rfl, fun _ => rfl⟩, ⟨fun _ _ => rfl, rfl⟩, hticked, hkept,
    rfl⟩

/-! ### The program counter -/

/-- The policy, instruction by instruction (R124). -/
theorem exec_pcPolicy {i : Instr} {s t : State} (h : exec i s = .next t) : PcPolicy i s t.pc := by
  cases i with
  | jp nnn | jpV0 nnn => cases h; rfl
  | call nnn => obtain ⟨_, rfl⟩ := execCall_eq_next h; rfl
  | ret =>
    obtain ⟨k, hk, hsp, rfl⟩ := execRet_eq_next h
    exact ⟨⟨k, hk⟩, hsp, rfl⟩
  | seImm x y | sneImm x y | seReg x y | sneReg x y | skp x | sknp x => cases h; simp [PcPolicy]
  | ldVxK x =>
    simp only [exec, execLdVxK, Host.Outcome.next.injEq] at h
    subst h
    split
    · rename_i hnone
      exact (if_pos (lowestKey_eq_none.1 hnone)).symm
    · rename_i k hsome
      have hkey : s.input.key ≠ 0 := fun hzero => by cases (lowestKey_eq_none.2 hzero).symm.trans hsome
      exact (if_neg hkey).symm
  | _ => cases h; simp [PcPolicy]

/-- Nothing the policy reads is an output pin. -/
theorem pcPolicy_beginCycle {i : Instr} {s : State} {a : Word} : PcPolicy i s.beginCycle a ↔ PcPolicy i s a := Iff.rfl

theorem step_pcPolicy {i : Instr} {s u : State} (hw : decodeWord s.fetchWord = some i) (h : step s = .next u) :
    PcPolicy i s u.pc := by
  obtain ⟨j, t, hj, he, rfl⟩ := step_eq_next h
  cases hw.symm.trans hj
  rw [State.endCycle_pc, ← pcPolicy_beginCycle]
  exact exec_pcPolicy he

theorem cycle_pc_of_step_eq_fault {s u : State} {f : Fault} (hstep : step s = .fault f) (hcycle : cycle s = .next u) :
    u.pc = s.pc := by
  cases (cycle_of_step_eq_fault hstep).symm.trans hcycle
  rfl

/-- Settles O30. -/
theorem programCounterPolicy : Obligations.ProgramCounterPolicy :=
  ⟨fun _ _ _ => exec_pcPolicy, fun _ _ _ => step_pcPolicy, fun _ _ _ => cycle_pc_of_step_eq_fault⟩

end Sys2Proof.Machine

/-! ## Control flow (spec 41_control_flow.md R140 to R147; 60_exceptions.md R252, R253) -/

namespace Sys2Proof.Machine

/-- A row of the table that bears the instruction's mnemonic holds its word: no other row bears it. -/
theorem inRow_of_mem_opcodeTable {i : Instr} {m : String} {mask pattern : Word}
    (hrow : ⟨m, mask, pattern⟩ ∈ opcodeTable) (hm : m = mnemonicOf i) : InRow i mask pattern := by
  obtain ⟨r, hr, hmnemonic, hword⟩ := encodesInRow i
  cases List.inj_on_of_nodup_map nodup_mnemonics hr hrow (hmnemonic.trans hm.symm)
  exact hword

/-! ### Jumps and skips: only `pc` is written -/

theorem State.sameOutside_jump (s : State) (a : Word) : SameOutside s (s.jump a) :=
  ⟨fun _ => rfl, ⟨rfl, fun _ => rfl⟩, ⟨fun _ _ => rfl, rfl⟩, ⟨rfl, rfl⟩, rfl, rfl, rfl⟩

theorem jumpsTo_of_exec {i : Instr} {s : State} {a : Word} (he : exec i s = .next (s.jump a)) :
    JumpsTo i s a.toNat :=
  ⟨_, he, rfl, fun _ => rfl, rfl, s.sameOutside_jump a⟩

theorem State.skipIf_eq_jump (s : State) (c : Bool) : s.skipIf c = s.jump (if c then s.pc + 4 else s.pc + 2) := by
  cases c <;> rfl

theorem skipsWhen_of_exec {i : Instr} {s : State} {c : Bool} {p : Prop} (he : exec i s = .next (s.skipIf c))
    (hc : c = true ↔ p) : SkipsWhen i s p := by
  rw [State.skipIf_eq_jump] at he
  exact ⟨_, he, fun hp => if_pos (hc.2 hp), fun hp => if_neg (mt hc.1 hp), fun _ => rfl, rfl, s.sameOutside_jump _⟩

/-- The sum of `JP V0` is below 65536, so it is the sum of the numbers (R147). -/
theorem toNat_zextAddr_add_zextByte (nnn : Addr12) (b : Byte) :
    (zextAddr nnn + zextByte b).toNat = nnn.toNat + b.toNat := by
  have := nnn.isLt
  have := b.isLt
  rw [BitVec.toNat_add, zextAddr_toNat, zextByte_toNat, Nat.mod_eq_of_lt (by omega)]

/-- Settles O24. -/
theorem jumpsSetProgramCounter : Obligations.JumpsSetProgramCounter := by
  intro s nnn
  have hjp : JumpsTo (.jp nnn) s (zextAddr nnn).toNat := jumpsTo_of_exec rfl
  have hjpV0 : JumpsTo (.jpV0 nnn) s (zextAddr nnn + zextByte (s.getV 0)).toNat := jumpsTo_of_exec rfl
  rw [zextAddr_toNat] at hjp
  rw [toNat_zextAddr_add_zextByte] at hjpV0
  exact ⟨inRow_of_mem_opcodeTable (m := "JP_nnn") (by decide) rfl, hjp,
    inRow_of_mem_opcodeTable (m := "JP_V0__nnn") (by decide) rfl, hjpV0⟩

/-- Settles O28: each skip tests its condition as a Boolean and is a `skipIf`. -/
theorem skipsOnComparison : Obligations.SkipsOnComparison := fun _ _ _ _ =>
  ⟨inRow_of_mem_opcodeTable (m := "SE_Vx__nn") (by decide) rfl, skipsWhen_of_exec rfl beq_iff_eq,
    inRow_of_mem_opcodeTable (m := "SNE_Vx__nn") (by decide) rfl, skipsWhen_of_exec rfl bne_iff_ne,
    inRow_of_mem_opcodeTable (m := "SE_Vx__Vy") (by decide) rfl, skipsWhen_of_exec rfl beq_iff_eq,
    inRow_of_mem_opcodeTable (m := "SNE_Vx__Vy") (by decide) rfl, skipsWhen_of_exec rfl bne_iff_ne⟩

/-! ### Calls and returns -/

theorem exec_call_of_lt {s : State} (nnn : Addr12) (hlt : s.sp.val < 16) :
    exec (.call nnn) s = .next { s with
      stack := s.stack.set s.sp.val s.pc hlt, sp := ⟨s.sp.val + 1, Nat.succ_lt_succ hlt⟩, pc := zextAddr nnn } := by
  simp only [exec, execCall, State.push_of_lt s.pc hlt, State.jump]

theorem exec_ret_of_succ {s : State} (k : Fin 16) (hsp : s.sp.val = k.val + 1) :
    exec .ret s = .next { s with sp := k.castSucc, pc := s.stack[k] + 2 } := by
  simp only [exec, execRet, State.pop_of_pos (hsp ▸ k.val.succ_pos : 0 < s.sp.val), hsp, Nat.add_sub_cancel]
  rfl

/-- The hardware's cycle at an instruction that faults reports the fault, and leaves the stack and `pc` (R256, R257). -/
theorem cycle_of_exec_fault {s : State} {i : Instr} {f : Fault} (he : exec i s.beginCycle = .fault f)
    (hw : decodeWord s.fetchWord = some i) :
    ∃ u, cycle s = .next u ∧ u.out.fault = some f ∧ SameStack s u ∧ u.pc = s.pc := by
  obtain ⟨-, -, hstack, -⟩ := s.endCycle_reportFault_frame f
  exact ⟨_, cycle_of_step_eq_fault (step_of_exec_fault hw he), rfl, hstack, rfl⟩

/-- Settles O25. -/
theorem callPushesItsAddress : Obligations.CallPushesItsAddress := by
  intro s nnn
  refine ⟨inRow_of_mem_opcodeTable (m := "CALL_nnn") (by decide) rfl, fun hlt => ?_, fun hfull => ?_⟩
  · refine ⟨_, exec_call_of_lt nnn hlt, zextAddr_toNat nnn, rfl, fun k => ?_, fun _ => rfl, rfl, fun _ => rfl,
      ⟨fun _ _ => rfl, rfl⟩, ⟨rfl, rfl⟩, rfl, rfl, rfl⟩
    simp only [Fin.getElem_fin, Vector.getElem_set, eq_comm (a := s.sp.val)]
  · exact ⟨_, exec_call_of_full nnn hfull, rfl, rfl,
      cycle_of_exec_fault (exec_call_of_full (s := s.beginCycle) nnn hfull)⟩

/-- Settles O26: a stack pointer above 0 is one above the number of the entry that is popped. -/
theorem returnPopsAndAddsTwo : Obligations.ReturnPopsAndAddsTwo := by
  intro s
  refine ⟨rfl, fun hpos => ?_, fun hempty => ?_⟩
  · obtain ⟨k, hk⟩ : ∃ k : Fin 16, s.sp.val = k.val + 1 := ⟨⟨s.sp.val - 1, by omega⟩, by simp only; omega⟩
    exact ⟨_, k, exec_ret_of_succ k hk, hk, rfl, rfl, fun _ => rfl, fun _ => rfl, rfl, fun _ => rfl,
      ⟨fun _ _ => rfl, rfl⟩, ⟨rfl, rfl⟩, rfl, rfl, rfl⟩
  · exact ⟨_, exec_ret_of_empty hempty, rfl, rfl, cycle_of_exec_fault (exec_ret_of_empty (s := s.beginCycle) hempty)⟩

/-- Settles O27: the return pops the entry that the call has just pushed. -/
theorem callThenReturnRoundTrip : Obligations.CallThenReturnRoundTrip := by
  intro s nnn hlt
  refine ⟨_, _, exec_call_of_lt nnn hlt, exec_ret_of_succ ⟨s.sp.val, hlt⟩ rfl, ?_, rfl⟩
  simp only [Fin.getElem_fin, Vector.getElem_set_self]

end Sys2Proof.Machine

/-! ## Arithmetic and logic (spec 42_alu.md R160 to R173) -/

namespace Sys2Proof.Machine

/-! ### The shapes: one register, or a flag and then a register, and an advance -/

/-- Whatever the registers and `pc` become, everything else of the machine is as before. -/
theorem State.sameOutside_with_v_pc (s : State) (v : Vector Byte 16) (a : Word) :
    SameOutside s { s with v := v, pc := a } :=
  ⟨fun _ => rfl, ⟨rfl, fun _ => rfl⟩, ⟨fun _ _ => rfl, rfl⟩, ⟨rfl, rfl⟩, rfl, rfl, rfl⟩

theorem writesRegister_of_exec {i : Instr} {s : State} {x : Nibble} {b : Byte}
    (he : exec i s = .next (s.setV x b).advance) : WritesRegister i s x b :=
  ⟨_, he, rfl, s.getV_setV_same x b, fun _ hr => s.getV_setV_of_ne b hr, rfl, s.sameOutside_with_v_pc _ _⟩

/-- The result is written last, so it stays where `x` is 15 (R173). -/
theorem writesFlagged_of_exec {i : Instr} {s : State} {x : Nibble} {f b : Byte}
    (he : exec i s = .next (s.setFlagged x f b).advance) : WritesFlagged i s x f b := by
  refine ⟨_, he, rfl, ?_, fun hx => ?_, fun r hr hF => s.getV_setFlagged_of_ne f b hr hF, rfl,
    s.sameOutside_with_v_pc _ _⟩
  · rw [State.getV_advance, State.getV_setFlagged, if_pos rfl]
  · rw [State.getV_advance, State.getV_setFlagged, if_neg (Ne.symm hx), if_pos rfl]

/-! ### Flags and results as numbers (R172) -/

theorem flagByte_decide (p : Prop) [Decidable p] : flagByte (decide p) = if p then 1 else 0 := by
  simp only [flagByte, decide_eq_true_eq]

theorem carryFlag_eq_ite (a b : Byte) : carryFlag a b = if 255 < a.toNat + b.toNat then 1 else 0 := flagByte_decide _

theorem noBorrowFlag_eq_ite (a b : Byte) : noBorrowFlag a b = if a.toNat < b.toNat then 0 else 1 := by
  rw [noBorrowFlag, ← decide_not, flagByte_decide, ite_not]

/-- A flag that is one bit of a value, as a number. -/
theorem flagByte_testBit (n k : Nat) : flagByte (n.testBit k) = BitVec.ofNat 8 (n / 2 ^ k % 2) := by
  rw [Nat.testBit_eq_decide_div_mod_eq, flagByte_decide]
  obtain h | h := Nat.mod_two_eq_zero_or_one (n / 2 ^ k) <;> rw [h] <;> rfl

theorem shiftedOutRight_eq_ofNat (a : Byte) : shiftedOutRight a = BitVec.ofNat 8 (a.toNat % 2) := by
  rw [shiftedOutRight, BitVec.getLsbD, flagByte_testBit, Nat.pow_zero, Nat.div_one]

theorem shiftedOutLeft_eq_ofNat (a : Byte) : shiftedOutLeft a = BitVec.ofNat 8 (a.toNat / 128) := by
  have := a.isLt
  rw [shiftedOutLeft, BitVec.getLsbD, flagByte_testBit, Nat.mod_eq_of_lt (by omega)]
  rfl

theorem ofNat_mod_256 (n : Nat) : BitVec.ofNat 8 (n % 256) = BitVec.ofNat 8 n :=
  BitVec.eq_of_toNat_eq (Nat.mod_mod n 256)

theorem byte_add_eq_ofNat (a b : Byte) : a + b = BitVec.ofNat 8 ((a.toNat + b.toNat) % 256) := by
  rw [ofNat_mod_256]
  rfl

theorem byte_sub_eq_ofNat (a b : Byte) : a - b = BitVec.ofNat 8 ((a.toNat + 256 - b.toNat) % 256) := by
  have := b.isLt
  apply BitVec.eq_of_toNat_eq
  rw [ofNat_mod_256, BitVec.toNat_sub, BitVec.toNat_ofNat]
  congr 1
  omega

theorem byte_ushiftRight_one_eq_ofNat (a : Byte) : a >>> 1 = BitVec.ofNat 8 (a.toNat / 2) := by
  have := a.isLt
  apply BitVec.eq_of_toNat_eq
  rw [BitVec.toNat_ushiftRight, Nat.shiftRight_one, BitVec.toNat_ofNat, Nat.mod_eq_of_lt (by omega)]

theorem byte_shiftLeft_one_eq_ofNat (a : Byte) : a <<< 1 = BitVec.ofNat 8 (2 * a.toNat % 256) := by
  apply BitVec.eq_of_toNat_eq
  rw [ofNat_mod_256, BitVec.toNat_shiftLeft, Nat.shiftLeft_eq, Nat.mul_comm, BitVec.toNat_ofNat, Nat.pow_one]

/-! ### The instructions -/

/-- Settles O31: each of the seven is one register write and an advance. -/
theorem movesAndLogicWriteOneRegister : Obligations.MovesAndLogicWriteOneRegister := by
  intro s x y nn
  have hadd : WritesRegister (.addImm x nn) s x (s.getV x + nn) := writesRegister_of_exec rfl
  rw [byte_add_eq_ofNat] at hadd
  exact ⟨inRow_of_mem_opcodeTable (m := "LD_Vx__nn") (by decide) rfl, writesRegister_of_exec rfl,
    inRow_of_mem_opcodeTable (m := "ADD_Vx__nn") (by decide) rfl, hadd,
    inRow_of_mem_opcodeTable (m := "LD_Vx__Vy") (by decide) rfl, writesRegister_of_exec rfl,
    inRow_of_mem_opcodeTable (m := "OR_Vx__Vy") (by decide) rfl, writesRegister_of_exec rfl,
    inRow_of_mem_opcodeTable (m := "AND_Vx__Vy") (by decide) rfl, writesRegister_of_exec rfl,
    inRow_of_mem_opcodeTable (m := "XOR_Vx__Vy") (by decide) rfl, writesRegister_of_exec rfl,
    inRow_of_mem_opcodeTable (m := "RND_Vx__nn") (by decide) rfl, writesRegister_of_exec rfl⟩

/-- Settles O32: each of the five is a flag and a result of the old operands, which the lemmas above give as numbers. -/
theorem arithmeticWritesFlagThenResult : Obligations.ArithmeticWritesFlagThenResult := by
  intro s x y
  have hadd : WritesFlagged (.addReg x y) s x _ _ := writesFlagged_of_exec rfl
  have hsub : WritesFlagged (.subReg x y) s x _ _ := writesFlagged_of_exec rfl
  have hshr : WritesFlagged (.shr x y) s x _ _ := writesFlagged_of_exec rfl
  have hsubn : WritesFlagged (.subnReg x y) s x _ _ := writesFlagged_of_exec rfl
  have hshl : WritesFlagged (.shl x y) s x _ _ := writesFlagged_of_exec rfl
  rw [carryFlag_eq_ite, byte_add_eq_ofNat] at hadd
  rw [noBorrowFlag_eq_ite, byte_sub_eq_ofNat] at hsub hsubn
  rw [shiftedOutRight_eq_ofNat, byte_ushiftRight_one_eq_ofNat] at hshr
  rw [shiftedOutLeft_eq_ofNat, byte_shiftLeft_one_eq_ofNat] at hshl
  exact ⟨inRow_of_mem_opcodeTable (m := "ADD_Vx__Vy") (by decide) rfl, hadd,
    inRow_of_mem_opcodeTable (m := "SUB_Vx__Vy") (by decide) rfl, hsub,
    inRow_of_mem_opcodeTable (m := "SHR_Vx") (by decide) rfl, hshr,
    inRow_of_mem_opcodeTable (m := "SUBN_Vx__Vy") (by decide) rfl, hsubn,
    inRow_of_mem_opcodeTable (m := "SHL_Vx") (by decide) rfl, hshl⟩

end Sys2Proof.Machine

/-! ## Index register and memory instructions (spec 43_index_memory.md R190 to R196) -/

namespace Sys2Proof.Machine

/-! ### What stays, and the new I -/

/-- Whatever the registers, I and `pc` become, everything else of the machine is as before. -/
theorem State.sameOutside_with_v_i_pc (s : State) (v : Vector Byte 16) (i a : Word) :
    SameOutside s { s with v := v, i := i, pc := a } :=
  ⟨fun _ => rfl, ⟨rfl, fun _ => rfl⟩, ⟨fun _ _ => rfl, rfl⟩, ⟨rfl, rfl⟩, rfl, rfl, rfl⟩

theorem setsIndex_of_exec {i : Instr} {s : State} {a : Word} (he : exec i s = .next (s.setI a).advance) :
    SetsIndex i s a.toNat :=
  ⟨_, he, rfl, rfl, fun _ => rfl, s.sameOutside_with_v_i_pc s.v a (s.pc + 2)⟩

/-- Stored bytes change memory only. -/
theorem State.storeBytes_frame (s : State) (a : Word) (bs : List Byte) :
    SameRegs s (s.storeBytes a bs) ∧ SameStack s (s.storeBytes a bs) ∧ SameDisplay s (s.storeBytes a bs) ∧
      SameTimers s (s.storeBytes a bs) ∧ SameInterface s (s.storeBytes a bs) := by
  rw [State.storeBytes_eq]
  exact ⟨fun _ => rfl, ⟨rfl, fun _ => rfl⟩, ⟨fun _ _ => rfl, rfl⟩, ⟨rfl, rfl⟩, rfl, rfl, rfl⟩

/-- The sum of `ADD I` wraps modulo 65536 (R191). -/
theorem toNat_add_zextByte (a : Word) (b : Byte) : (a + zextByte b).toNat = (a.toNat + b.toNat) % 65536 := by
  rw [BitVec.toNat_add, zextByte_toNat]

/-- The product of `LD F` is below 65536, so it is the product of the numbers (R192). -/
theorem fontAddr_toNat (b : Byte) : (fontAddr b).toNat = b.toNat * 5 := by
  have := b.isLt
  rw [fontAddr, BitVec.toNat_mul, zextByte_toNat]
  exact Nat.mod_eq_of_lt (show b.toNat * 5 < 65536 by omega)

/-- I past the run of V0 to `V[x]` (R194, R195). -/
theorem State.toNat_effAddr_regCount (s : State) (x : Nibble) :
    (s.effAddr (regCount x)).toNat = (s.i.toNat + x.toNat + 1) % 65536 := by
  rw [State.effAddr, BitVec.toNat_add, BitVec.toNat_ofNat, Nat.add_mod_mod, regCount, Nat.add_assoc]

/-- Settles O34: each of the three sets I and advances. -/
theorem indexInstructionsSetIndex : Obligations.IndexInstructionsSetIndex := by
  intro s x nnn
  have hldI : SetsIndex (.ldI nnn) s (zextAddr nnn).toNat := setsIndex_of_exec rfl
  have haddI : SetsIndex (.addI x) s (s.i + zextByte (s.getV x)).toNat := setsIndex_of_exec rfl
  have hldF : SetsIndex (.ldF x) s (fontAddr (s.getV x)).toNat := setsIndex_of_exec rfl
  rw [zextAddr_toNat] at hldI
  rw [toNat_add_zextByte] at haddI
  rw [fontAddr_toNat] at hldF
  exact ⟨inRow_of_mem_opcodeTable (m := "LD_I__nnn") (by decide) rfl, hldI,
    inRow_of_mem_opcodeTable (m := "ADD_I__Vx") (by decide) rfl, haddI,
    inRow_of_mem_opcodeTable (m := "LD_F__Vx") (by decide) rfl, hldF⟩

/-! ### The decimal digits (R193) -/

theorem State.memRead_storeBytes_bcdDigits {s : State} (b : Byte) (hmem : s.memWf) {k : Nat} (hk : k < 3) :
    (s.storeBytes s.i (bcdDigits b)).memRead (s.effAddr k) = (bcdDigits b)[k]'hk :=
  State.memRead_storeBytes_at s.i (s.effAddr k) (bcdDigits b) hmem (by decide : 3 ≤ 4096) k hk rfl

/-- Each digit fits a byte, so the byte stored is the digit. -/
theorem State.toNat_memRead_storeBytes_bcdDigits {s : State} (b : Byte) (hmem : s.memWf) :
    ((s.storeBytes s.i (bcdDigits b)).memRead (s.effAddr 0)).toNat = b.toNat / 100 ∧
    ((s.storeBytes s.i (bcdDigits b)).memRead (s.effAddr 1)).toNat = b.toNat / 10 % 10 ∧
    ((s.storeBytes s.i (bcdDigits b)).memRead (s.effAddr 2)).toNat = b.toNat % 10 := by
  have hb := b.isLt
  refine ⟨?_, ?_, ?_⟩ <;> rw [State.memRead_storeBytes_bcdDigits b hmem (by decide)] <;>
    exact Nat.mod_eq_of_lt (by omega)

/-- Settles O35: the three digits are a run of bytes stored from I. -/
theorem storeBcdWritesThreeDigits : Obligations.StoreBcdWritesThreeDigits := by
  intro s x
  refine ⟨inRow_of_mem_opcodeTable (m := "LD_B__Vx") (by decide) rfl, fun hmem => ?_⟩
  obtain ⟨hregs, hstack, hdisp, htimers, hinterface⟩ := s.storeBytes_frame s.i (bcdDigits (s.getV x))
  obtain ⟨hhundreds, htens, hones⟩ := State.toNat_memRead_storeBytes_bcdDigits (s.getV x) hmem
  exact ⟨_, rfl, congrArg (· + 2) (s.storeBytes_pc _ _), hhundreds, htens, hones,
    fun a ha => State.memRead_storeBytes_other s.i a (bcdDigits (s.getV x)) hmem ha,
    hregs, s.storeBytes_i _ _, hstack, hdisp, htimers, hinterface⟩

/-! ### The run of registers (R194, R195) -/

/-- A line outside the run of V0 to `V[x]` reads as before the store. -/
theorem State.memRead_storeBytes_regsUpTo_other {s : State} {x : Nibble} {a : Word} (hmem : s.memWf)
    (ha : ∀ k : Nibble, k ≤ x → lineOf a ≠ lineOf (s.effAddr k.toNat)) :
    (s.storeBytes s.i (s.regsUpTo x)).memRead a = s.memRead a := by
  refine State.memRead_storeBytes_other s.i a _ hmem fun k hk => ?_
  have hx := x.isLt
  rw [State.length_regsUpTo, regCount] at hk
  have hnum : (BitVec.ofNat 4 k).toNat = k := Nat.mod_eq_of_lt (by omega)
  have hline := ha (BitVec.ofNat 4 k) (BitVec.le_def.2 (by omega))
  rwa [hnum] at hline

/-- Settles O36. -/
theorem storeRegistersWritesRun : Obligations.StoreRegistersWritesRun := by
  intro s x
  refine ⟨inRow_of_mem_opcodeTable (m := "LD__I___Vx") (by decide) rfl, fun hmem => ?_⟩
  obtain ⟨hregs, hstack, hdisp, htimers, hinterface⟩ := s.storeBytes_frame s.i (s.regsUpTo x)
  refine ⟨_, rfl, congrArg (· + 2) (s.storeBytes_pc _ _), fun k hk => ?_,
    fun a ha => State.memRead_storeBytes_regsUpTo_other hmem ha,
    s.toNat_effAddr_regCount x, hregs, hstack, hdisp, htimers, hinterface⟩
  have hbyte := State.memRead_storeBytes_regsUpTo hmem (BitVec.le_def.1 hk) (rfl : lineOf (s.effAddr k.toNat) = _)
  rwa [BitVec.ofNat_toNat, BitVec.setWidth_eq] at hbyte

/-- A load whose last register is `x` sets each register up to `x` to its byte of the run. -/
theorem State.getV_loadRegs_of_le (s : State) {x r : Nibble} (hr : r ≤ x) :
    (s.loadRegs s.i (regCount x)).getV r = s.memRead (s.effAddr r.toNat) :=
  (s.getV_loadRegs s.i (regCount x) x.isLt r).trans (if_pos (Nat.lt_succ_of_le (BitVec.le_def.1 hr)))

/-- Settles O37. -/
theorem loadRegistersReadsRun : Obligations.LoadRegistersReadsRun := by
  intro s x
  refine ⟨inRow_of_mem_opcodeTable (m := "LD_Vx___I") (by decide) rfl, _, rfl, congrArg (· + 2) (s.loadRegs_pc _ _),
    fun k hk => s.getV_loadRegs_of_le hk, fun k hk => s.getV_loadRegs_of_lt s.i (BitVec.not_le.2 hk),
    s.toNat_effAddr_regCount x, ?_⟩
  rw [State.loadRegs_eq]
  exact s.sameOutside_with_v_i_pc _ _ _

/-- Settles O38: what the load reads is what the store wrote, since both runs start at the same I. -/
theorem storeThenLoadRestoresRegisters : Obligations.StoreThenLoadRestoresRegisters := by
  intro s t x w hmem hexec
  obtain ⟨-, hstore⟩ := storeRegistersWritesRun s x
  obtain ⟨t', hexec', -, hbytes, -, hti, -⟩ := hstore hmem
  cases hexec.symm.trans hexec'
  obtain ⟨-, u, hload, -, hregs, -, hui, -⟩ := loadRegistersReadsRun { t with v := w, i := s.i } x
  exact ⟨u, hload, fun k hk => (hregs k hk).trans (hbytes k hk), BitVec.eq_of_toNat_eq (hui.trans hti.symm)⟩

end Sys2Proof.Machine

/-! ## Display (spec 44_display.md R210 to R213) -/

namespace Sys2Proof.Machine

/-! ### What stays, and what a sprite bit depends on -/

/-- Whatever the display, the redraw flag, the registers and `pc` become, everything else of the machine but I is as
before. -/
theorem State.frame_with_disp_redraw_v_pc (s : State) (d : Display) (c : Bool) (v : Vector Byte 16) (a : Word) :
    SameMemory s { s with disp := d, redraw := c, v := v, pc := a } ∧
      SameStack s { s with disp := d, redraw := c, v := v, pc := a } ∧
      SameTimers s { s with disp := d, redraw := c, v := v, pc := a } ∧
      SameInterface s { s with disp := d, redraw := c, v := v, pc := a } :=
  ⟨fun _ => rfl, ⟨rfl, fun _ => rfl⟩, ⟨rfl, rfl⟩, rfl, rfl, rfl⟩

/-- The sprite is read from memory at I, so a draw that leaves both leaves the sprite. -/
theorem State.spriteBit_congr {s t : State} (hmem : SameMemory s t) (hi : t.i = s.i) (vx vy : Byte) (n : Nat)
    (yy : Fin 32) (xx : Fin 64) : t.spriteBit vx vy n yy xx = s.spriteBit vx vy n yy xx := by
  simp only [State.spriteBit, State.effAddr, hi, hmem _]

/-! ### The instructions -/

/-- Settles O39. -/
theorem clearScreenBlanksDisplay : Obligations.ClearScreenBlanksDisplay := fun s =>
  ⟨rfl, _, rfl, rfl, blankDisplay_get, rfl, fun _ => rfl, rfl, s.frame_with_disp_redraw_v_pc _ _ _ _⟩

/-- Settles O40: VF is the flag byte of the renderer's collision bit, and is written after the coordinates are read. -/
theorem drawXorsSpriteAndReportsCollision : Obligations.DrawXorsSpriteAndReportsCollision := by
  intro s x y n
  have hn : n.toNat ≤ 15 := Nat.le_of_lt_succ n.isLt
  have hhit := s.drawRows_hit (s.getV x) (s.getV y) n.toNat hn
  refine ⟨inRow_of_mem_opcodeTable (m := "DRW_Vx__Vy__n") (by decide) rfl, _, rfl, rfl,
    fun yy xx => s.drawRows_get _ _ _ hn yy xx, fun hcollision => ?_, fun hclear => ?_, rfl,
    fun r hr => State.getV_setV_of_ne _ _ hr, rfl, s.frame_with_disp_redraw_v_pc _ _ _ _⟩
  · rw [State.getV_advance, State.getV_setV_same, hhit.2 hcollision]
    rfl
  · have hmiss : (s.drawRows (s.getV x) (s.getV y) n.toNat).hit = false := by
      refine Bool.eq_false_iff.2 fun h => ?_
      obtain ⟨yy, xx, hbit, hcell⟩ := hhit.1 h
      exact Bool.false_ne_true ((hclear yy xx hbit).symm.trans hcell)
    rw [State.getV_advance, State.getV_setV_same, hmiss]
    rfl

/-- Settles O41: the second draw has the sprite and the place of the first, so each cell takes the same bit twice, and
under a set bit it finds the opposite of the cell from before. -/
theorem drawTwiceRestoresDisplay : Obligations.DrawTwiceRestoresDisplay := by
  intro s x y n hx hy
  obtain ⟨-, t, hdraw, -, hcell, -, -, -, hregs, hi, hmem, -⟩ := drawXorsSpriteAndReportsCollision s x y n
  obtain ⟨-, u, hdraw', -, hcell', hcollision, hclear, -⟩ := drawXorsSpriteAndReportsCollision t x y n
  simp only [hregs x hx, hregs y hy, State.spriteBit_congr hmem hi] at hcell' hcollision hclear
  have hflip : ∀ yy xx, s.spriteBit (s.getV x) (s.getV y) n.toNat yy xx = true →
      t.disp.get yy xx = !s.disp.get yy xx := fun yy xx hbit => by rw [hcell, hbit, Bool.xor_true]
  refine ⟨t, u, hdraw, hdraw', fun yy xx => ?_, fun hone => ?_, fun ⟨yy, xx, hbit, hoff⟩ => ?_⟩
  · rw [hcell', hcell, Bool.xor_assoc, Bool.xor_self, Bool.xor_false]
  · by_contra hnone
    have hzero : u.getV 0xF = 0 := hclear fun yy xx hbit => by
      rw [hflip yy xx hbit, Bool.not_eq_false']
      exact Bool.eq_true_of_not_eq_false fun hoff => hnone ⟨yy, xx, hbit, hoff⟩
    exact absurd (hzero.symm.trans hone) (by decide)
  · exact hcollision ⟨yy, xx, hbit, by rw [hflip yy xx hbit, hoff, Bool.not_false]⟩

end Sys2Proof.Machine

/-! ## Keypad and timers (spec 45_keypad_timers.md R230 to R236) -/

namespace Sys2Proof.Machine

/-! ### Keys -/

/-- The key a register value names is that of its low nibble (R230, D10). -/
theorem State.keyDown_keyIndex (s : State) (b : Byte) :
    s.keyDown (keyIndex b) = s.input.key.getLsbD (b.toNat % 16) := by
  rw [State.keyDown, keyIndex_toNat]

/-- Settles O29: both skips are a `skipIf` on the level of the key that `V[x]` names. -/
theorem skipsOnKey : Obligations.SkipsOnKey := by
  intro s x
  have hskp : SkipsWhen (.skp x) s (s.keyDown (keyIndex (s.getV x)) = true) := skipsWhen_of_exec rfl Iff.rfl
  have hsknp : SkipsWhen (.sknp x) s (s.keyDown (keyIndex (s.getV x)) = false) :=
    skipsWhen_of_exec rfl (Bool.not_eq_true' _).to_iff
  rw [State.keyDown_keyIndex] at hskp hsknp
  exact ⟨inRow_of_mem_opcodeTable (m := "SKP_Vx") (by decide) rfl, hskp,
    inRow_of_mem_opcodeTable (m := "SKNP_Vx") (by decide) rfl, hsknp⟩

theorem exec_ldVxK_of_lowestKey {s : State} {k : Nibble} (x : Nibble) (hk : lowestKey s.input.key = some k) :
    exec (.ldVxK x) s = .next (s.setV x (BitVec.ofNat 8 k.toNat)).advance := by
  simp only [exec, execLdVxK, hk, BitVec.ofNat_toNat]

/-- Settles O42: where some key is down there is a lowest one, and its number is written as a byte. -/
theorem waitForKeyTakesLowestKey : Obligations.WaitForKeyTakesLowestKey := by
  intro s x
  refine ⟨inRow_of_mem_opcodeTable (m := "LD_Vx__K") (by decide) rfl,
    fun hkey => ⟨_, exec_ldVxK_of_no_key x hkey, rfl⟩, fun hkey => ?_⟩
  obtain ⟨k, hk⟩ := Option.ne_none_iff_exists'.1 (mt lowestKey_eq_none.1 hkey)
  obtain ⟨hdown, hleast⟩ := lowestKey_eq_some.1 hk
  exact ⟨k, hdown, hleast, writesRegister_of_exec (exec_ldVxK_of_lowestKey x hk)⟩

/-! ### Timers -/

/-- Whatever the timers and `pc` become, everything else of the machine is as before. -/
theorem State.frame_with_dt_st_pc (s : State) (d c : Byte) (a : Word) :
    SameRegs s { s with dt := d, st := c, pc := a } ∧ ({ s with dt := d, st := c, pc := a } : State).i = s.i ∧
      SameMemory s { s with dt := d, st := c, pc := a } ∧ SameStack s { s with dt := d, st := c, pc := a } ∧
      SameDisplay s { s with dt := d, st := c, pc := a } ∧ SameInterface s { s with dt := d, st := c, pc := a } :=
  ⟨fun _ => rfl, rfl, fun _ => rfl, ⟨rfl, fun _ => rfl⟩, ⟨fun _ _ => rfl, rfl⟩, rfl, rfl, rfl⟩

/-- Settles O43: the read is one register write; the writes set one timer and `pc`. -/
theorem timerInstructionsMoveTimers : Obligations.TimerInstructionsMoveTimers := fun s x =>
  ⟨inRow_of_mem_opcodeTable (m := "LD_Vx__DT") (by decide) rfl, writesRegister_of_exec rfl,
    inRow_of_mem_opcodeTable (m := "LD_DT__Vx") (by decide) rfl,
    ⟨_, rfl, rfl, rfl, rfl, s.frame_with_dt_st_pc (s.getV x) s.st (s.pc + 2)⟩,
    inRow_of_mem_opcodeTable (m := "LD_ST__Vx") (by decide) rfl,
    ⟨_, rfl, rfl, rfl, rfl, s.frame_with_dt_st_pc s.dt (s.getV x) (s.pc + 2)⟩⟩

end Sys2Proof.Machine

/-! ## After a fault, and the timers of an executing cycle (spec 60_exceptions.md R258, R264, R265) -/

namespace Sys2Proof.Machine

/-- Settles O10: the faulting cycle leaves the fetched word, `pc` and `sp` as they were, and these alone decide the fault. -/
theorem faultRepeatsEveryCycle : Obligations.FaultRepeatsEveryCycle := by
  intro s u f hstep hcycle
  cases (cycle_of_step_eq_fault hstep).symm.trans hcycle
  exact step_fault_congr hstep rfl rfl rfl

/-- Phases P1 to P3 go on only by an instruction that ran. -/
theorem attempt_eq_next {s t : State} (h : attempt s = .next t) :
    ∃ i, decodeWord s.fetchWord = some i ∧ exec i s = .next t := by
  cases hw : decodeWord s.fetchWord with
  | none => cases (attempt_of_unsupported hw).symm.trans h
  | some i => exact ⟨i, rfl, (attempt_of_decode hw).symm.trans h⟩

/-- Settles O11: the cycle ends from what the instruction left, whose inputs are still those of the cycle and whose sound
trigger is still clear. -/
theorem timersTickAfterInstruction : Obligations.TimersTickAfterInstruction := by
  intro s t u hattempt hcycle
  obtain ⟨i, hw, he⟩ := attempt_eq_next hattempt
  cases (cycle_of_step_eq_next (step_of_exec_next hw he)).symm.trans hcycle
  have hinput : t.input = s.input := State.input_congr (exec_env (s := s.beginCycle) he)
  obtain ⟨hticked, hkept⟩ := t.timers_endCycle
  have hsound : t.endCycle.out.soundTrigger = true ↔ t.input.timerTick = true ∧ t.st = 1 := by
    rw [State.soundTrigger_endCycle (exec_soundTrigger he), Bool.and_eq_true, beq_iff_eq]
  rw [hinput] at hticked hkept hsound
  exact ⟨hticked, hkept, hsound⟩

end Sys2Proof.Machine

/-! ## Machines with different fonts (spec 70_reset_and_hazards.md R292) -/

namespace Sys2Proof.Machine

/-- The machine with another memory and font. -/
def State.withMemory (s : State) (m : Memory) (f : Config.Font) : State := { s with mem := m, font := f }

namespace DifferInFont

variable {s t : State}

/-! ### What the two machines hold and read alike -/

theorem exists_eq_withMemory (h : DifferInFont s t) : ∃ m f, t = s.withMemory m f ∧ SameMemory s t := ⟨_, _, h⟩

theorem v (h : DifferInFont s t) : t.v = s.v := by rw [h.1]
theorem i (h : DifferInFont s t) : t.i = s.i := by rw [h.1]
theorem pc (h : DifferInFont s t) : t.pc = s.pc := by rw [h.1]
theorem sp (h : DifferInFont s t) : t.sp = s.sp := by rw [h.1]
theorem disp (h : DifferInFont s t) : t.disp = s.disp := by rw [h.1]
theorem env (h : DifferInFont s t) : t.env = s.env := by rw [h.1]

theorem getV (h : DifferInFont s t) (r : Nibble) : t.getV r = s.getV r := State.getV_congr h.v r

theorem memRead (h : DifferInFont s t) {a b : Word} (hab : lineOf a = lineOf b) : t.memRead a = s.memRead b :=
  (State.memRead_congr rfl rfl hab).trans (h.2 b)

theorem fetchWord (h : DifferInFont s t) : t.fetchWord = s.fetchWord := by
  simp only [State.fetchWord, h.pc, h.memRead rfl]

theorem drawRows (h : DifferInFont s t) (vx vy : Byte) (n : Nat) : t.drawRows vx vy n = s.drawRows vx vy n :=
  State.drawRows_congr vx vy n (fun _ _ => h.memRead) h.disp (congrArg lineOf h.i)

/-! ### What keeps them alike -/

/-- An update that neither reads nor writes memory and font. -/
theorem map (h : DifferInFont s t) {g : State → State}
    (hg : ∀ (u : State) m f, g (u.withMemory m f) = (g u).withMemory m f) : DifferInFont (g s) (g t) := by
  obtain ⟨m, f, rfl, hread⟩ := h.exists_eq_withMemory
  have hsame : g s = (g s).withMemory s.mem s.font := hg s s.mem s.font
  have hkept : SameMemory s (g s) := fun a => by rw [hsame]; rfl
  rw [hg]
  exact ⟨rfl, fun a => (hread a).trans (hkept a).symm⟩

theorem advance (h : DifferInFont s t) : DifferInFont s.advance t.advance := h.map fun _ _ _ => rfl

theorem skipIf (h : DifferInFont s t) (c : Bool) : DifferInFont (s.skipIf c) (t.skipIf c) :=
  h.map (g := fun u => u.skipIf c) fun _ _ _ => by cases c <;> rfl

theorem setI (h : DifferInFont s t) (a : Word) : DifferInFont (s.setI a) (t.setI a) :=
  h.map (g := fun u => u.setI a) fun _ _ _ => rfl

theorem setV (h : DifferInFont s t) (x : Nibble) (b : Byte) : DifferInFont (s.setV x b) (t.setV x b) :=
  h.map (g := fun u => u.setV x b) fun _ _ _ => rfl

theorem waitForKey (h : DifferInFont s t) : DifferInFont s.waitForKey t.waitForKey := h.map fun _ _ _ => rfl

theorem beginCycle (h : DifferInFont s t) : DifferInFont s.beginCycle t.beginCycle := h.map fun _ _ _ => rfl

theorem endCycle (h : DifferInFont s t) : DifferInFont s.endCycle t.endCycle := h.map fun _ _ _ => rfl

/-- The same registers loaded from memories that read alike. -/
theorem loadRegs (h : DifferInFont s t) (a : Word) (k : Nat) : DifferInFont (s.loadRegs a k) (t.loadRegs a k) := by
  rw [State.loadRegs_eq s, State.loadRegs_eq t, State.loadRegs_v_congr k (fun _ _ => h.memRead) h.v rfl]
  exact h.map (g := fun u => { u with v := (s.loadRegs a k).v }) fun _ _ _ => rfl

/-- The same bytes stored into memories that read alike. -/
theorem storeBytes (h : DifferInFont s t) (hs : s.memWf) (ht : t.memWf) (a : Word) (bs : List Byte) :
    DifferInFont (s.storeBytes a bs) (t.storeBytes a bs) := by
  have hread : SameMemory (s.storeBytes a bs) (t.storeBytes a bs) := State.memRead_storeBytes_congr a bs ht hs h.2
  obtain ⟨m, f, rfl, -⟩ := h.exists_eq_withMemory
  rw [State.storeBytes_eq s, State.storeBytes_eq (s.withMemory m f)] at hread ⊢
  exact ⟨rfl, hread⟩

/-! ### Instructions -/

/-- A call pushes the same address at the same place, or faults in both machines. -/
theorem exec_call (h : DifferInFont s t) (nnn : Addr12) :
    SameOutcome DifferInFont (exec (.call nnn) s) (exec (.call nnn) t) := by
  by_cases hfull : s.sp.val = 16
  · rw [exec_call_of_full nnn hfull, exec_call_of_full nnn (h.sp ▸ hfull), h.pc]
    rfl
  · have hlt : s.sp.val < 16 := by omega
    simp only [exec, execCall, State.push_of_lt _ hlt, State.push_of_lt _ (h.sp ▸ hlt : t.sp.val < 16)]
    obtain ⟨m, f, rfl, hread⟩ := h.exists_eq_withMemory
    exact ⟨rfl, hread⟩

/-- A return pops the same entry, or faults in both machines. -/
theorem exec_ret (h : DifferInFont s t) : SameOutcome DifferInFont (exec .ret s) (exec .ret t) := by
  by_cases hempty : s.sp.val = 0
  · rw [exec_ret_of_empty hempty, exec_ret_of_empty (h.sp ▸ hempty), h.pc]
    rfl
  · have hpos : 0 < s.sp.val := by omega
    simp only [exec, execRet, State.pop_of_pos hpos, State.pop_of_pos (h.sp ▸ hpos : 0 < t.sp.val)]
    obtain ⟨m, f, rfl, hread⟩ := h.exists_eq_withMemory
    exact ⟨rfl, hread⟩

/-- No instruction reads the font. Of those that touch memory, sprites and loads read the same bytes in both machines,
and stores leave the same bytes there. -/
theorem exec_sameOutcome (h : DifferInFont s t) (hs : s.memWf) (ht : t.memWf) (i : Instr) :
    SameOutcome DifferInFont (exec i s) (exec i t) := by
  cases i with
  | call nnn => exact h.exec_call nnn
  | ret => exact h.exec_ret
  | seImm x y | sneImm x y | seReg x y | sneReg x y =>
    simp only [exec, execSeImm, execSneImm, execSeReg, execSneReg, h.getV]
    exact h.skipIf _
  | skp x | sknp x =>
    simp only [exec, execSkp, execSknp, State.keyDown, h.getV, State.input_congr h.env]
    exact h.skipIf _
  | ldVxK x =>
    simp only [exec, execLdVxK, State.input_congr h.env]
    split
    · exact h.waitForKey
    · exact (h.setV _ _).advance
  | drw x y n =>
    simp only [exec, execDrw, h.drawRows, h.getV]
    obtain ⟨m, f, rfl, hread⟩ := h.exists_eq_withMemory
    exact ⟨rfl, hread⟩
  | ldB x =>
    simp only [exec, execLdB, h.getV, h.i]
    exact (h.storeBytes hs ht _ _).advance
  | ldMemVx x =>
    simp only [exec, execLdMemVx, State.regsUpTo, State.effAddr, h.v, h.i]
    exact ((h.storeBytes hs ht _ _).setI _).advance
  | ldVxMem x =>
    simp only [exec, execLdVxMem, State.effAddr, h.i]
    exact ((h.loadRegs _ _).setI _).advance
  | _ =>
    obtain ⟨m, f, rfl, hread⟩ := h.exists_eq_withMemory
    exact ⟨rfl, hread⟩

end DifferInFont

/-- Settles O50: both machines fetch the same word, and the instruction it decodes to keeps them alike. -/
theorem fontShowsOnlyThroughMemory : Obligations.FontShowsOnlyThroughMemory := by
  intro s t hs ht h
  cases hword : decodeWord s.fetchWord with
  | none =>
    have hword' : decodeWord t.fetchWord = none := by rw [h.fetchWord, hword]
    rw [step_of_unsupported hword, step_of_unsupported hword', h.fetchWord, h.pc]
    rfl
  | some i =>
    have hword' : decodeWord t.fetchWord = some i := by rw [h.fetchWord, hword]
    rw [step_of_decode hword, step_of_decode hword']
    obtain ⟨s', t', hs', ht', h'⟩ | ⟨f, hs', ht'⟩ | ⟨r, hs', -⟩ := (h.beginCycle.exec_sameOutcome hs ht i).cases
    · rw [hs', ht']
      exact h'.endCycle
    · rw [hs', ht']
      rfl
    · exact absurd hs' (exec_ne_refused _ _ _)

end Sys2Proof.Machine

/-! ## Timers inside a cycle, and the end of a run (spec 70_reset_and_hazards.md R300, R304) -/

namespace Sys2Proof.Machine

/-- Settles O12: the step is the read or the write of the timer, then the end of the cycle. -/
theorem timerAccessPrecedesTick : Obligations.TimerAccessPrecedesTick := by
  intro s x htick
  refine ⟨fun hw => ?_, fun hw => ?_, fun hw => ?_⟩
  · have hstep : step s = .next (s.beginCycle.setV x s.dt).advance.endCycle := step_of_exec_next hw rfl
    obtain ⟨hdt, -⟩ := (State.timers_endCycle (s.beginCycle.setV x s.dt).advance).1 htick
    exact ⟨_, hstep, State.getV_setV_same _ _ _, hdt⟩
  · have hstep : step s = .next ({ s.beginCycle with dt := s.getV x } : State).advance.endCycle :=
      step_of_exec_next hw rfl
    obtain ⟨hdt, -⟩ := (State.timers_endCycle ({ s.beginCycle with dt := s.getV x } : State).advance).1 htick
    exact ⟨_, hstep, hdt⟩
  · have hstep : step s = .next ({ s.beginCycle with st := s.getV x } : State).advance.endCycle :=
      step_of_exec_next hw rfl
    obtain ⟨-, hst⟩ := (State.timers_endCycle ({ s.beginCycle with st := s.getV x } : State).advance).1 htick
    refine ⟨_, hstep, hst, ?_⟩
    rw [State.soundTrigger_endCycle rfl, Bool.and_eq_true, beq_iff_eq]
    exact and_iff_right htick

/-- At the end of a run the jump leaves `pc` where it is, so the cycle is the timer updater alone. -/
theorem step_of_endOfRun {s : State} (h : EndOfRun s) : step s = .next s.beginCycle.endCycle := by
  obtain ⟨nnn, hw, hpc⟩ := h
  have hjump : s.beginCycle.jump (zextAddr nnn) = s.beginCycle := by rw [← hpc]; rfl
  exact step_of_exec_next hw (congrArg Host.Outcome.next hjump)

/-- Settles O14: the step is a cycle of the timer updater alone, and no timer grows in it. -/
theorem endOfRunIsStable : Obligations.EndOfRunIsStable := fun s h =>
  ⟨_, step_of_endOfRun h, h, rfl, rfl, fun _ => rfl, fun _ => rfl, ⟨rfl, fun _ => rfl⟩, ⟨fun _ _ => rfl, rfl⟩,
    tickDown_le _ s.dt, tickDown_le _ s.st⟩

end Sys2Proof.Machine

/-! ## Loading a program, and Reset (spec 70_reset_and_hazards.md R290, R293 to R295) -/

namespace Sys2Proof.Machine

theorem State.loadProgram_of_fits {s : State} {image : List Byte} (hlen : image.length ≤ 3584)
    (hstart : s.env.started = false) : s.loadProgram image = .next (s.storeBytes Config.progBase image) :=
  if_pos ⟨hlen, hstart⟩

theorem State.loadProgram_of_too_long (s : State) {image : List Byte} (hlen : 3584 < image.length) :
    s.loadProgram image = .refused .loadNotAllowed :=
  if_neg fun h => Nat.not_lt.2 h.1 hlen

/-- The line of the image byte at offset `k`: no image that fits wraps. -/
theorem lineOf_progBase_add {k : Nat} (hk : k < 3584) : lineOf (Config.progBase + BitVec.ofNat 16 k) = 0x200 + k := by
  rw [lineOf_add]
  exact Nat.mod_eq_of_lt (by omega : 0x200 + k < 4096)

/-- Settles O20: the image is a run of stored bytes whose lines all lie between 0x200 and 0xFFF. -/
theorem programLoadsFromProgramBase : Obligations.ProgramLoadsFromProgramBase := by
  intro s image hmem hstart
  refine ⟨s.loadProgram_of_too_long, fun hlen => ⟨_, State.loadProgram_of_fits hlen hstart, ?_, ?_, ?_⟩⟩
  · intro k hk
    exact State.memRead_storeBytes_at _ _ image hmem (by omega) k hk (congrArg lineOf (BitVec.ofNat_add 0x200 k))
  · intro b hb
    refine State.memRead_storeBytes_other _ b image hmem fun k hk => ?_
    rw [lineOf_progBase_add (by omega)]
    unfold lineOf
    omega
  · exact s.storeBytes_eq _ image

/-- Reset depends on the font, the queue and the count of inputs only, and it keeps these. -/
theorem State.runInitializer_runInitializer (s : State) : s.runInitializer.runInitializer = s.runInitializer := rfl

/-- Settles O18: the state after Reset is read off `runInitializer`, which is idempotent. -/
theorem resetMoveForgetsTheState : Obligations.ResetMoveForgetsTheState := fun s =>
  ⟨s.runInitializer, rfl, rfl, congrArg Host.Outcome.next s.runInitializer_runInitializer, rfl, rfl, rfl⟩

end Sys2Proof.Machine
